-- ==== Sys2Proof/Word.lean ====
section
/-! DEFINITION. The bit-vector types of the codec: the two data formats (10_state.md rules R15, R16),
the operation code and operand ports (rule R22) and the 35-bit request word (30_encoding.md rule R30).
Bit 0 is the least significant bit throughout (00_scope.md rule R11). -/

namespace Sys2Proof

/-- A 32-bit IEEE-754 pattern (rule R16); also the width of the ports `a` and `y` (rule R22). -/
abbrev F32 := BitVec 32

/-- A 16-bit bfloat16 pattern, the document's BitPattern16 (rule R15). -/
abbrev BF16 := BitVec 16

/-- The 3-bit operation code on port `op` (rules R22, R31). -/
abbrev OpCode := BitVec 3

/-- The 35-bit request word, op above a (rule R30). -/
abbrev ReqWord := BitVec 35

/-- One byte of a host's buffer (rule R26); the block itself has no byte-addressed port. -/
abbrev Byte := BitVec 8

end Sys2Proof
end

