-- ==== Sys2Proof/Config.lean ====
section
/-! DEFINITION. The parameters fixed when the block is built (00_scope.md rules R9, R10; 70_reset_and_hazards.md
rule R107) and the parameters of the host around it that the spec leaves open. None of them is state. -/

namespace Sys2Proof

/-- The two NaN constants, kept as a parameter pair (44_special_values.md rules R87, R88, R90). -/
structure NaNParams where
  /-- QNAN_PATTERN of rule R87. -/
  qnan : BF16
  /-- SNAN_PATTERN of rule R88. -/
  snan : BF16
deriving DecidableEq, Repr

/-- The pair the spec decides (decisions D8 and D9): 0x7FC0 and 0x7FA0. -/
def Config.decided : NaNParams := { qnan := 0x7FC0#16, snan := 0x7FA0#16 }

/-- Mantissa width of BF16 (rule R9). -/
def Config.bf16MantissaBits : Nat := 7

/-- Mantissa width of F32 (rule R9). -/
def Config.f32MantissaBits : Nat := 23

/-- The exponent bias of both formats (rule R9). -/
def Config.bias : Nat := 127

/-- ELEM_BYTE_ORDER (20_memory.md rule R26): how a HOST lays an element out in byte-addressed memory.
The spec leaves it open, so everything that depends on it takes it as an argument. -/
inductive ByteOrder where
  | little
  | big
deriving DecidableEq, Repr

/-- The external 32-bit functions of the value-type layer (43_value_type.md rule R75). The spec leaves them open
(decision D21): they are a parameter of the layer, and no operation of the block uses them. -/
structure F32Unit where
  add : F32 → F32 → F32
  sub : F32 → F32 → F32
  mul : F32 → F32 → F32
  div : F32 → F32 → F32
  eq : F32 → F32 → Bool
  lt : F32 → F32 → Bool
  le : F32 → F32 → Bool
  gt : F32 → F32 → Bool
  ge : F32 → F32 → Bool

end Sys2Proof
end

