-- ==== Sys2Proof/Syntax.lean ====
section
/-! DEFINITION. The syntax: the eight operations of 30_encoding.md rule R31, one constructor each, the three
rounding policies (rule R37) and the request a host presents (rule R30). An instruction keeps ALL 32 bits of the
operand port, the ignored ones too, so that no bit of a request word is dropped by decoding. -/

namespace Sys2Proof

/-- The rounding policy of a narrowing (rule R37): TRUNC, RN, RNE. -/
inductive Mode where
  /-- Truncate. -/
  | trunc
  /-- RoundNearest: an exact tie rounds up in the bit pattern. -/
  | rn
  /-- RoundNearestEven, the default policy of the surrounding software (rule R73). -/
  | rne
deriving DecidableEq, Repr

/-- One operation with what stands on the operand port. -/
inductive Instr where
  /-- TRUNC (rule R53): `a` is an F32 pattern. -/
  | trunc (a : F32)
  /-- RN (rule R54): `a` is an F32 pattern. -/
  | rn (a : F32)
  /-- RNE (rule R55): `a` is an F32 pattern. -/
  | rne (a : F32)
  /-- WIDEN (rule R65): the BF16 pattern is `a[15:0]`; `a[31:16]` is ignored (rule R34). -/
  | widen (a : F32)
  /-- PINF (rule R85): `a` is ignored. -/
  | pinf (a : F32)
  /-- NINF (rule R86): `a` is ignored. -/
  | ninf (a : F32)
  /-- QNAN (rule R87): `a` is ignored. -/
  | qnan (a : F32)
  /-- SNAN (rule R88): `a` is ignored. -/
  | snan (a : F32)
deriving DecidableEq, Repr

/-- The eight mnemonics of rule R31 without their operands. -/
inductive Op where
  | trunc
  | rn
  | rne
  | widen
  | pinf
  | ninf
  | qnan
  | snan
deriving DecidableEq, Repr

/-- A request: the values on the two input ports (rules R22, R30). -/
structure Request where
  op : OpCode
  a : F32
deriving DecidableEq, Repr

/-- The instruction with mnemonic `o` and operand `a`. -/
def Op.instr (o : Op) (a : F32) : Instr :=
  match o with
  | .trunc => .trunc a
  | .rn => .rn a
  | .rne => .rne a
  | .widen => .widen a
  | .pinf => .pinf a
  | .ninf => .ninf a
  | .qnan => .qnan a
  | .snan => .snan a

/-- The mnemonic of an instruction. -/
def Instr.op (i : Instr) : Op :=
  match i with
  | .trunc _ => .trunc
  | .rn _ => .rn
  | .rne _ => .rne
  | .widen _ => .widen
  | .pinf _ => .pinf
  | .ninf _ => .ninf
  | .qnan _ => .qnan
  | .snan _ => .snan

/-- The 32 bits on the operand port. -/
def Instr.operand (i : Instr) : F32 :=
  match i with
  | .trunc a => a
  | .rn a => a
  | .rne a => a
  | .widen a => a
  | .pinf a => a
  | .ninf a => a
  | .qnan a => a
  | .snan a => a

end Sys2Proof
end

