-- ==== Sys2Proof/WellFormed.lean ====
section
/-! DEFINITION. What is well formed. Every instruction is (30_encoding.md rule R36: no reserved, illegal or hint
encoding, every operand value legal); what CAN be ill formed is a number that is no 35-bit request word, and a pair of
NaN constants that is not what 44_special_values.md rule R90 requires. The labels of a host's program are checked in
Machine/HostProgram.lean. -/

namespace Sys2Proof

/-- Rule R36: every instruction is well formed, whatever its operand bits. -/
def Instr.wellFormed (i : Instr) : Bool :=
  match i with
  | .trunc _ => true
  | .rn _ => true
  | .rne _ => true
  | .widen _ => true
  | .pinf _ => true
  | .ninf _ => true
  | .qnan _ => true
  | .snan _ => true

/-- A number is a request word when it has at most 35 bits (rule R30: one length). -/
def isRequestWord (w : Nat) : Bool := decide (w < 2 ^ 35)

/-- Rule R90 for QNAN_PATTERN: exponent all ones, mantissa most-significant bit set. -/
def quietPatternOk (p : BF16) : Bool :=
  p.extractLsb' 7 8 == 0xFF#8 && p.getLsbD 6

/-- Rule R90 for SNAN_PATTERN: exponent all ones, mantissa most-significant bit clear, the rest not all zero. -/
def signalingPatternOk (p : BF16) : Bool :=
  p.extractLsb' 7 8 == 0xFF#8 && !p.getLsbD 6 && p.extractLsb' 0 6 != 0#6

/-- Rule R90 for the pair. -/
def NaNParams.wellFormed (P : NaNParams) : Bool :=
  quietPatternOk P.qnan && signalingPatternOk P.snan

end Sys2Proof
end

