-- ==== Sys2Proof/Decode.lean ====
section
/-! DEFINITION. Decoding a 35-bit request word (30_encoding.md rules R30, R31, R36), the encoder, and the opcode table
of rule R31 as data. Decoding is total on request words and has no invalid verdict (rule R36); a number of more than 35
bits is no request word and is rejected by name. -/

namespace Sys2Proof

/-- The request word {op, a} of a request (rule R30). -/
def requestWord (r : Request) : ReqWord := r.op ++ r.a

/-- The request a request word writes down (rule R30): `op` is bits 34:32, `a` is bits 31:0. -/
def requestOfWord (w : ReqWord) : Request :=
  { op := w.extractLsb' 32 3, a := w.extractLsb' 0 32 }

/-- Field `cls` of rule R30, bit 34: 0 conversion, 1 special value. -/
def fieldCls (w : ReqWord) : BitVec 1 := w.extractLsb' 34 1

/-- Field `sub` of format C, bits 33:32. -/
def fieldSub (w : ReqWord) : BitVec 2 := w.extractLsb' 32 2

/-- Field `nan` of format S, bit 33: 0 infinity, 1 NaN. -/
def fieldNan (w : ReqWord) : BitVec 1 := w.extractLsb' 33 1

/-- Field `alt` of format S, bit 32: the sign of an infinity; 0 quiet, 1 signaling for a NaN. -/
def fieldAlt (w : ReqWord) : BitVec 1 := w.extractLsb' 32 1

/-- Field `a` of both formats, bits 31:0. -/
def fieldA (w : ReqWord) : F32 := w.extractLsb' 0 32

/-- Format C of rule R30, by its field `sub`. -/
def decodeConversion (sub : BitVec 2) (a : F32) : Instr :=
  if sub = 0#2 then .trunc a
  else if sub = 1#2 then .rn a
  else if sub = 2#2 then .rne a
  else .widen a

/-- Format S of rule R30, by its fields `nan` and `alt`. -/
def decodeSpecial (nan alt : BitVec 1) (a : F32) : Instr :=
  if nan = 0#1 then
    if alt = 0#1 then .pinf a else .ninf a
  else
    if alt = 0#1 then .qnan a else .snan a

/-- The decoder (rules R30, R36): `cls` tells the two formats apart. -/
def decode (w : ReqWord) : Instr :=
  if fieldCls w = 0#1 then decodeConversion (fieldSub w) (fieldA w)
  else decodeSpecial (fieldNan w) (fieldAlt w) (fieldA w)

/-- Why a number is not decoded. -/
inductive DecodeError where
  /-- The number has more than 35 bits: it is no request word (rule R30: one length). Raised by `decodeNat`;
  safe, since no request of the block is lost by it. -/
  | notARequestWord
deriving DecidableEq, Repr

/-- Decoding any number: a request word decodes, anything longer is rejected by name. -/
def decodeNat (w : Nat) : Except DecodeError Instr :=
  if isRequestWord w then .ok (decode (BitVec.ofNat 35 w)) else .error .notARequestWord

/-- The numeric operation code of a mnemonic (the column `op` of rule R31). -/
def opCode (o : Op) : OpCode :=
  match o with
  | .trunc => 0b000#3
  | .rn => 0b001#3
  | .rne => 0b010#3
  | .widen => 0b011#3
  | .pinf => 0b100#3
  | .ninf => 0b101#3
  | .qnan => 0b110#3
  | .snan => 0b111#3

/-- The request that stands for an instruction (rules R30, R31). -/
def instrRequest (i : Instr) : Request := { op := opCode i.op, a := i.operand }

/-- The encoder: the request word of an instruction (rules R30, R31). -/
def encode (i : Instr) : ReqWord := requestWord (instrRequest i)

/-- The operation code of a narrowing policy (rule R37). -/
def modeOp (m : Mode) : Op :=
  match m with
  | .trunc => .trunc
  | .rn => .rn
  | .rne => .rne

/-- One row of rule R31: a word belongs to it when the word under `mask` is `pattern`. -/
structure OpcodeRow where
  op : Op
  pattern : ReqWord
  mask : ReqWord
deriving DecidableEq, Repr

/-- The opcode table of rule R31, its columns `match` and `mask`. -/
def opcodeTable : List OpcodeRow :=
  [ ⟨.trunc, 0x000000000#35, 0x700000000#35⟩,
    ⟨.rn, 0x100000000#35, 0x700000000#35⟩,
    ⟨.rne, 0x200000000#35, 0x700000000#35⟩,
    ⟨.widen, 0x300000000#35, 0x700000000#35⟩,
    ⟨.pinf, 0x400000000#35, 0x700000000#35⟩,
    ⟨.ninf, 0x500000000#35, 0x700000000#35⟩,
    ⟨.qnan, 0x600000000#35, 0x700000000#35⟩,
    ⟨.snan, 0x700000000#35, 0x700000000#35⟩ ]

/-- Whether word `w` belongs to row `r`. -/
def rowMatches (r : OpcodeRow) (w : ReqWord) : Bool := w &&& r.mask == r.pattern

/-- The instruction the decoder reads from a word of `nbits` bits numbered as the opcode table numbers them; the
request word is one word, so its number is the word itself, and bits above `nbits` are zero. -/
def decodeTableWord (nbits w : Nat) : Option Instr :=
  match decodeNat (w % 2 ^ nbits) with
  | .ok i => some i
  | .error _ => none

end Sys2Proof
end

