-- ==== Sys2Proof/Machine/State.lean ====
section
/-! DEFINITION. The state of the model, the reasons a step can stop, and the state after reset.
The block has NO architectural state (10_state.md rule R13): no register, program counter, flag, mode, memory, queue or
hidden state. What stands in State is the run of 70_reset_and_hazards.md rule R111 and nothing else: the requests the
host has chosen and not yet presented, and the results observed so far. Both are the HOST's side of the ports; the
block's output is a function of the request alone. (DESIGN CHOICE, safe: notes/assumptions/1.md.) -/

namespace Sys2Proof.Machine

/-- A run in progress (rule R111). -/
structure State where
  /-- The host's requests still to be presented, the next one first. -/
  pending : List Request
  /-- The values of port `y` observed so far, the oldest first. -/
  results : List F32
deriving DecidableEq, Repr

/-- The set of faults is EMPTY: 60_exceptions.md rule R95 gives the block no exception, no fault outcome and no stuck
outcome. Nobody raises one. -/
inductive Fault where
deriving DecidableEq, Repr

/-- The reasons to refuse an instruction. Rule R95 gives the block no refusal outcome. -/
inductive Refusal where
  /-- Raised by exec's arm of an instruction that has no meaning in the model yet; safe (the model stops where the
  hardware goes on). No arm of this model raises it. -/
  | notModelled (mnemonic : String)
deriving DecidableEq, Repr

/-- Rules R24 and R105: the block has nothing to reset. No request has been presented and none observed. -/
def State.reset : State := { pending := [], results := [] }

end Sys2Proof.Machine
end

