-- ==== Sys2Proof/Machine/Ops.lean ====
section
/-! DEFINITION. The operations the meanings share. The block has no register, no memory and no status word to read or
write (10_state.md rules R13, R14; 20_memory.md rule R25), so what is shared is: how a result appears on port `y`, how
the host's next request reaches the ports, and the NaN constants the block was built with.
TAKING AN EXCEPTION: there is none to take and none to return from (60_exceptions.md rules R95, R97, R99), so no
operation for it stands here. -/

namespace Sys2Proof.Machine

/-- The NaN constants of the block (rules R87, R88, R107): the pair the spec decides. -/
def nanParams : NaNParams := Config.decided

/-- Rule R35 for a BF16 result: `y[15:0]` is the pattern and `y[31:16]` is zero. -/
def packBF16 (r : BF16) : F32 := r.setWidth 32

/-- Rule R111: the value of port `y` for the presented request is the run's next observation. -/
def State.produce (s : State) (y : F32) : State :=
  { s with results := s.results ++ [y] }

/-- The next request of the host, and the run without it (rule R111). -/
def State.takeRequest (s : State) : Option (Request × State) :=
  match s.pending with
  | [] => none
  | r :: rest => some (r, { s with pending := rest })

/-- What a step does when the host presents nothing: nothing is observed (DESIGN CHOICE, notes/assumptions/2.md; rule
R111: the run ends when the list is exhausted, and the block cannot hang or fault). -/
def State.idle (s : State) : State := s

/-- The host puts request `r` before all it still wants to present. -/
def State.present (s : State) (r : Request) : State :=
  { s with pending := r :: s.pending }

/-- The request a number writes down is presented next; a number that is no request word presents nothing. -/
def State.presentWord (s : State) (w : Nat) : State :=
  if isRequestWord w then s.present (requestOfWord (BitVec.ofNat 35 w)) else s

/-- A run about to start: the requests `rs`, nothing observed (rule R111). -/
def State.load (rs : List Request) : State := { pending := rs, results := [] }

end Sys2Proof.Machine
end

