-- ==== Sys2Proof/Machine/Operands.lean ====
section
/-! DEFINITION. The fields of the two data formats (10_state.md rules R15, R16) and of an operand (30_encoding.md rules
R33, R34). No field is sign-extended, scaled or shifted (rule R33). -/

namespace Sys2Proof.Machine

/-- `p[15]` (rule R15). -/
def sign16 (p : BF16) : Bool := p.getLsbD 15

/-- `p[14:7]` (rule R15). -/
def exp16 (p : BF16) : BitVec 8 := p.extractLsb' 7 8

/-- `p[6:0]` (rule R15). -/
def man16 (p : BF16) : BitVec 7 := p.extractLsb' 0 7

/-- `x[31]` (rule R16). -/
def sign32 (x : F32) : Bool := x.getLsbD 31

/-- `x[30:23]` (rule R16). -/
def exp32 (x : F32) : BitVec 8 := x.extractLsb' 23 8

/-- `x[22:0]` (rule R16). -/
def man32 (x : F32) : BitVec 23 := x.extractLsb' 0 23

/-- `hi16` of rule R33: `x[31:16]`. -/
def hi16 (x : F32) : BF16 := x.extractLsb' 16 16

/-- `lo16` of rule R33: `x[15:0]`. -/
def lo16 (x : F32) : BitVec 16 := x.extractLsb' 0 16

/-- `round_bit` of rule R33: `x[15]`, weight 0x8000. -/
def roundBit (x : F32) : Bool := x.getLsbD 15

/-- `sticky` of rule R33: `x[14:0]`. -/
def sticky (x : F32) : BitVec 15 := x.extractLsb' 0 15

/-- `lsb` of rule R33: `x[16]`. -/
def lsb (x : F32) : Bool := x.getLsbD 16

/-- The operand of WIDEN (rule R34): `a[15:0]`; `a[31:16]` is ignored. -/
def widenOperand (a : F32) : BF16 := a.extractLsb' 0 16

/-- A BF16 pattern `p` with its sign bit replaced by `s`: {s, p[14:0]} (rule R52). -/
def withSign (s : Bool) (p : BF16) : BF16 := BitVec.ofBool s ++ p.extractLsb' 0 15

end Sys2Proof.Machine
end

