-- ==== Sys2Proof/Machine/Flags.lean ====
section
/-! DEFINITION. The block has NO status flags and no condition codes (10_state.md rule R14): no operation reports
inexact, overflow, underflow or invalid, and no operation here writes one. What can be asked of a pattern is its class:
the predicates of rules R19 and R20. A caller tests with them (60_exceptions.md rule R103); inside the block only the
NaN guard of 41_narrowing.md rule R52 does. -/

namespace Sys2Proof.Machine

/-- Rule R19. -/
def isNaN32 (x : F32) : Bool := exp32 x == 0xFF#8 && man32 x != 0#23

/-- Rule R19. -/
def isInf32 (x : F32) : Bool := exp32 x == 0xFF#8 && man32 x == 0#23

/-- Rule R19: bits 30:0 are zero. -/
def isZero32 (x : F32) : Bool := x.extractLsb' 0 31 == 0#31

/-- Rule R19. -/
def isSub32 (x : F32) : Bool := exp32 x == 0x00#8 && man32 x != 0#23

/-- Rule R19. -/
def isNormal32 (x : F32) : Bool := exp32 x != 0x00#8 && exp32 x != 0xFF#8

/-- Rule R19. -/
def isFinite32 (x : F32) : Bool := exp32 x != 0xFF#8

/-- Rule R19: a NaN with bit 22 set. -/
def isQuiet32 (x : F32) : Bool := isNaN32 x && x.getLsbD 22

/-- Rule R19: a NaN with bit 22 clear. -/
def isSignaling32 (x : F32) : Bool := isNaN32 x && !x.getLsbD 22

/-- Rule R20. -/
def isNaN16 (p : BF16) : Bool := exp16 p == 0xFF#8 && man16 p != 0#7

/-- Rule R20. -/
def isInf16 (p : BF16) : Bool := exp16 p == 0xFF#8 && man16 p == 0#7

/-- Rule R20: bits 14:0 are zero. -/
def isZero16 (p : BF16) : Bool := p.extractLsb' 0 15 == 0#15

/-- Rule R20. -/
def isSub16 (p : BF16) : Bool := exp16 p == 0x00#8 && man16 p != 0#7

/-- Rule R20. -/
def isNormal16 (p : BF16) : Bool := exp16 p != 0x00#8 && exp16 p != 0xFF#8

/-- Rule R20. -/
def isFinite16 (p : BF16) : Bool := exp16 p != 0xFF#8

/-- Rule R20: a NaN with bit 6 set. -/
def isQuiet16 (p : BF16) : Bool := isNaN16 p && p.getLsbD 6

/-- Rule R20: a NaN with bit 6 clear. -/
def isSignaling16 (p : BF16) : Bool := isNaN16 p && !p.getLsbD 6

end Sys2Proof.Machine
end

