-- ==== Sys2Proof/Machine/Rounder.lean ====
section
/-! DEFINITION. The sub-block mantissa_rounder_with_exponent_carry (40_rounder.md rules R40 to R43, R47): the increment
decision and the 16-bit incrementer. It is the only arithmetic of the block, one addition on the pattern as an integer;
the carry into the exponent is a consequence of it, not a case (rule R47). -/

namespace Sys2Proof.Machine

/-- The increment decision (rule R41). -/
def inc (m : Mode) (roundBit : Bool) (sticky : BitVec 15) (lsb : Bool) : Bool :=
  match m with
  | .trunc => false
  | .rn => roundBit
  | .rne => roundBit && (sticky != 0#15 || lsb)

/-- The 17-bit sum of rule R43, which cannot overflow 17 bits. -/
def sum17 (v : BF16) (i : Bool) : BitVec 17 :=
  v.setWidth 17 + (BitVec.ofBool i).setWidth 17

/-- The incrementer (rule R43): (out16, carry_out). -/
def incr16 (v : BF16) (i : Bool) : BF16 × Bool :=
  ((sum17 v i).extractLsb' 0 16, (sum17 v i).getLsbD 16)

/-- The rounder (rule R40): outputs out16 and carry_out; `lsb` is bit 0 of `hi16`. -/
def rounder (m : Mode) (hi : BF16) (roundBit : Bool) (sticky : BitVec 15) : BF16 × Bool :=
  incr16 hi (inc m roundBit sticky (hi.getLsbD 0))

end Sys2Proof.Machine
end

