-- ==== Sys2Proof/Machine/Narrowing.lean ====
section
/-! DEFINITION. The sub-block fp_narrowing_f32_to_bf16 (41_narrowing.md rules R50 to R55): the unguarded result, the NaN
guard, and the meanings of TRUNC, RN and RNE. The carry out of the incrementer is dropped (rule R43). No flag is written
and no exception raised. -/

namespace Sys2Proof.Machine

/-- The literal algorithm (rule R50); a model of the original software without the guard uses this. -/
def rawNarrow (m : Mode) (x : F32) : BF16 :=
  (incr16 (hi16 x) (inc m (roundBit x) (sticky x) (lsb x))).1

/-- Rule R52 for any pair of NaN constants: a NaN operand whose literal result is no NaN gives the quiet NaN constant
with the operand's sign. -/
def narrowWith (P : NaNParams) (m : Mode) (x : F32) : BF16 :=
  if isNaN32 x && !isNaN16 (rawNarrow m x) then withSign (sign32 x) P.qnan else rawNarrow m x

/-- Rule R52 with the block's constants. -/
def narrow (m : Mode) (x : F32) : BF16 := narrowWith nanParams m x

/-- TRUNC (rule R53). -/
def execTrunc (a : F32) (s : State) : Host.Outcome State Fault Refusal :=
  .next (s.produce (packBF16 (narrow .trunc a)))

/-- RN (rule R54). -/
def execRn (a : F32) (s : State) : Host.Outcome State Fault Refusal :=
  .next (s.produce (packBF16 (narrow .rn a)))

/-- RNE (rule R55). -/
def execRne (a : F32) (s : State) : Host.Outcome State Fault Refusal :=
  .next (s.produce (packBF16 (narrow .rne a)))

end Sys2Proof.Machine
end

