-- ==== Sys2Proof/Machine/Special.lean ====
section
/-! DEFINITION. The sub-block special_value_generator (44_special_values.md rules R85 to R88, R92): four constants, none
of them depending on the operand port. Producing a signaling NaN signals nothing (rule R88). -/

namespace Sys2Proof.Machine

/-- Positive infinity (rule R85): sign 0, exponent all ones, mantissa zero. -/
def pinfPattern : BF16 := 0x7F80#16

/-- Negative infinity (rule R86): sign 1, exponent all ones, mantissa zero. -/
def ninfPattern : BF16 := 0xFF80#16

/-- QNAN_PATTERN (rule R87). -/
def qnanPattern : BF16 := nanParams.qnan

/-- SNAN_PATTERN (rule R88). -/
def snanPattern : BF16 := nanParams.snan

/-- PINF (rule R85); `a` is ignored (rule R35). -/
def execPinf (_a : F32) (s : State) : Host.Outcome State Fault Refusal :=
  .next (s.produce (packBF16 pinfPattern))

/-- NINF (rule R86); `a` is ignored (rule R35). -/
def execNinf (_a : F32) (s : State) : Host.Outcome State Fault Refusal :=
  .next (s.produce (packBF16 ninfPattern))

/-- QNAN (rule R87); `a` is ignored (rule R35). -/
def execQnan (_a : F32) (s : State) : Host.Outcome State Fault Refusal :=
  .next (s.produce (packBF16 qnanPattern))

/-- SNAN (rule R88); `a` is ignored (rule R35). -/
def execSnan (_a : F32) (s : State) : Host.Outcome State Fault Refusal :=
  .next (s.produce (packBF16 snanPattern))

end Sys2Proof.Machine
end

