-- ==== Sys2Proof/Machine/Widening.lean ====
section
/-! DEFINITION. The sub-block fp_widening_bf16_to_f32 (42_widening.md rules R65 to R67): wiring, with no case on the
class of the operand. A signaling NaN stays signaling; no flag, no trap (60_exceptions.md rule R96). -/

namespace Sys2Proof.Machine

/-- Rule R65: {p, 16'h0000}. -/
def widen (p : BF16) : F32 := p ++ 0x0000#16

/-- WIDEN (rule R65): the operand is `a[15:0]` (rule R34). -/
def execWiden (a : F32) (s : State) : Host.Outcome State Fault Refusal :=
  .next (s.produce (widen (widenOperand a)))

end Sys2Proof.Machine
end

