-- ==== Sys2Proof/Machine/Dispatch.lean ====
section
/-! DEFINITION. One arm per operation of 30_encoding.md rule R31, each one call of its meaning. -/

namespace Sys2Proof.Machine

/-- The operation `i` on the run `s`: its result is the next observation. -/
def exec (i : Instr) (s : State) : Host.Outcome State Fault Refusal :=
  match i with
  | .trunc a => Sys2Proof.Machine.execTrunc a s
  | .rn a => Sys2Proof.Machine.execRn a s
  | .rne a => Sys2Proof.Machine.execRne a s
  | .widen a => Sys2Proof.Machine.execWiden a s
  | .pinf a => Sys2Proof.Machine.execPinf a s
  | .ninf a => Sys2Proof.Machine.execNinf a s
  | .qnan a => Sys2Proof.Machine.execQnan a s
  | .snan a => Sys2Proof.Machine.execSnan a s

end Sys2Proof.Machine
end

