-- ==== Sys2Proof/Machine/Step.lean ====
section
/-! DEFINITION. One step: the host presents its next request and observes the result (70_reset_and_hazards.md rule
R111). There is no program counter and no fetch (10_state.md rule R13); the request word is decoded and its operation
run. -/

namespace Sys2Proof.Machine

/-- One request of the run (rule R111); with no request left the run has ended and the state stays. -/
def step (s : State) : Host.Outcome State Fault Refusal :=
  match s.takeRequest with
  | none => .next s.idle
  | some (r, s') => exec (decode (requestWord r)) s'

/-- The request that the `nbits` bits of `w` write down, presented before all others: the next step runs it. -/
def State.withFetchWord (s : State) (nbits w : Nat) : State := s.presentWord (w % 2 ^ nbits)

end Sys2Proof.Machine
end

