-- ==== Sys2Proof/Machine/HostBuffer.lean ====
section
/-! DEFINITION. How a HOST that keeps elements in byte-addressed buffers lays them out (20_memory.md rule R26). The block
has no memory port and no address space (rule R25): nothing here is part of it. The byte order is an argument, because the
spec leaves ELEM_BYTE_ORDER open; it is the same for 16-bit elements and 32-bit floats. -/

namespace Sys2Proof.Machine

/-- A list of bytes, least significant first, in a byte order: the first byte lies at the lowest address. -/
def orderBytes (o : ByteOrder) (leastFirst : List Byte) : List Byte :=
  match o with
  | .little => leastFirst
  | .big => leastFirst.reverse

/-- The two bytes of a BF16 element, lowest address first. -/
def storeBF16 (o : ByteOrder) (p : BF16) : List Byte :=
  orderBytes o [p.extractLsb' 0 8, p.extractLsb' 8 8]

/-- The four bytes of an F32, lowest address first. -/
def storeF32 (o : ByteOrder) (x : F32) : List Byte :=
  orderBytes o [x.extractLsb' 0 8, x.extractLsb' 8 8, x.extractLsb' 16 8, x.extractLsb' 24 8]

/-- The BF16 element two bytes hold; none for another number of bytes. -/
def loadBF16 (o : ByteOrder) (bs : List Byte) : Option BF16 :=
  match orderBytes o bs with
  | [b0, b1] => some (b1 ++ b0)
  | _ => none

/-- The F32 four bytes hold; none for another number of bytes. -/
def loadF32 (o : ByteOrder) (bs : List Byte) : Option F32 :=
  match orderBytes o bs with
  | [b0, b1, b2, b3] => some (b3 ++ b2 ++ b1 ++ b0)
  | _ => none

/-- The part of a stored F32 that a stored BF16 element takes the place of: its two most significant bytes. -/
def upperBytes (o : ByteOrder) (bs : List Byte) : List Byte :=
  match o with
  | .little => bs.drop 2
  | .big => bs.take 2

end Sys2Proof.Machine
end

