-- ==== Sys2Proof/Machine/Eval.lean ====
section
/-! DEFINITION. The block as the spec draws it: port `y` as a combinational function of ports `op` and `a`
(10_state.md rule R22, 30_encoding.md rule R32). It is written from rule R32 by operation CODE, apart from the decoder and
the meanings that `step` runs; that the two agree is a statement. -/

namespace Sys2Proof.Machine

/-- Rule R32. -/
def eval (op : OpCode) (a : F32) : F32 :=
  if op = 0b000#3 then packBF16 (narrow .trunc a)
  else if op = 0b001#3 then packBF16 (narrow .rn a)
  else if op = 0b010#3 then packBF16 (narrow .rne a)
  else if op = 0b011#3 then widen (widenOperand a)
  else if op = 0b100#3 then packBF16 0x7F80#16
  else if op = 0b101#3 then packBF16 0xFF80#16
  else if op = 0b110#3 then packBF16 nanParams.qnan
  else packBF16 nanParams.snan

/-- Rule R32 of a request. -/
def evalRequest (r : Request) : F32 := eval r.op r.a

/-- Rule R22: the value on port `y` while the host presents the head of the run; none when it presents nothing
(10_state.md rule R24: the output then means nothing). -/
def State.portY (s : State) : Option F32 := (s.takeRequest).map (fun t => evalRequest t.1)

end Sys2Proof.Machine
end

