-- ==== Sys2Proof/Machine/HostProgram.lean ====
section
/-! DEFINITION. A host's program in the spelling of 30_encoding.md rule R38: request lines, pseudo-operations with their
expansions, and `ext` lines computed outside the block. Sequencing and data flow are the host's (rules R111, R112); the
block sees only the requests that come out. A label is the number of an earlier line, counted from 0. -/

namespace Sys2Proof.Machine

/-- What follows a mnemonic. -/
inductive AsmOperand where
  /-- No operand: `a` is taken as zero. -/
  | absent
  /-- A literal on port `a`; the four digits of a WIDEN stand in its low half. -/
  | literal (a : F32)
  /-- The result of an earlier line. -/
  | label (line : Nat)
deriving DecidableEq, Repr

/-- The pseudo-operations of rule R38. -/
inductive Pseudo where
  /-- NARROW. -/
  | narrowDefault
  /-- NARROW.T. -/
  | narrowT
  /-- NARROW.RN. -/
  | narrowRN
  /-- NARROW.RNE. -/
  | narrowRNE
  /-- TOFLOAT32. -/
  | toFloat32
  /-- FROMBITS: no request. -/
  | fromBits
  /-- INF. -/
  | inf
  /-- NEGINF. -/
  | negInf
deriving DecidableEq, Repr

/-- The external operations of rule R75. -/
inductive ExtOp where
  | add
  | sub
  | mul
  | div
deriving DecidableEq, Repr

/-- The external comparisons of rule R75. -/
inductive ExtCmp where
  | eq
  | lt
  | le
  | gt
  | ge
deriving DecidableEq, Repr

/-- One line of a host's program. -/
inductive HostLine where
  | request (o : Op) (x : AsmOperand)
  | pseudo (p : Pseudo) (x : AsmOperand)
  | ext (f : ExtOp) (u v : Nat)
  | extCompare (f : ExtCmp) (u v : Nat)
deriving DecidableEq, Repr

/-- What a line leaves under its label. -/
inductive LineResult where
  /-- The block answered `y` to a request. -/
  | block (y : F32)
  /-- The host computed a pattern itself (an `ext` line, FROMBITS). -/
  | host (y : F32)
  /-- The host computed a truth value. -/
  | verdict (b : Bool)
deriving DecidableEq, Repr

/-- The expansion of a pseudo-operation (rule R38); none for FROMBITS, which issues no request. -/
def expandPseudo (p : Pseudo) : Option Op :=
  match p with
  | .narrowDefault => some .rne
  | .narrowT => some .trunc
  | .narrowRN => some .rn
  | .narrowRNE => some .rne
  | .toFloat32 => some .widen
  | .fromBits => none
  | .inf => some .pinf
  | .negInf => some .ninf

/-- The pattern under a label. -/
def LineResult.pattern (r : LineResult) : Option F32 :=
  match r with
  | .block y => some y
  | .host y => some y
  | .verdict _ => none

/-- The result of the block on a line that was a request. -/
def LineResult.fromBlock (r : LineResult) : Option F32 :=
  match r with
  | .block y => some y
  | .host _ => none
  | .verdict _ => none

/-- The pattern under the label `k`; none for a line that has not run or left a truth value. -/
def labelPattern (env : List LineResult) (k : Nat) : Option F32 :=
  match env[k]? with
  | some r => r.pattern
  | none => none

/-- Whether a mnemonic takes an operand (rule R38). -/
def takesOperand (o : Op) : Bool :=
  match o with
  | .trunc => true
  | .rn => true
  | .rne => true
  | .widen => true
  | .pinf => false
  | .ninf => false
  | .qnan => false
  | .snan => false

/-- The value a label puts on port `a` (rule R38): the low 16 bits for WIDEN, all 32 bits for a narrowing. -/
def labelOperand (o : Op) (y : F32) : F32 :=
  match o with
  | .trunc => y
  | .rn => y
  | .rne => y
  | .widen => packBF16 (widenOperand y)
  | .pinf => y
  | .ninf => y
  | .qnan => y
  | .snan => y

/-- The request of a line (rule R38); none when the operand is missing or its label leads nowhere. A literal after a
special value stands on the ignored port. -/
def lineRequest (env : List LineResult) (o : Op) (x : AsmOperand) : Option Request :=
  match x with
  | .absent => if takesOperand o then none else some { op := opCode o, a := 0#32 }
  | .literal a => some { op := opCode o, a := a }
  | .label k => if takesOperand o then (labelPattern env k).map (fun y => { op := opCode o, a := labelOperand o y })
      else none

/-- The 16 bits that FROMBITS takes, as a pattern under a label. -/
def fromBitsOperand (env : List LineResult) (x : AsmOperand) : Option F32 :=
  match x with
  | .absent => none
  | .literal a => some (packBF16 (widenOperand a))
  | .label k => (labelPattern env k).map (fun y => packBF16 (widenOperand y))

/-- The external operation of an `ext` line. -/
def extFunction (U : F32Unit) (f : ExtOp) : F32 → F32 → F32 :=
  match f with
  | .add => U.add
  | .sub => U.sub
  | .mul => U.mul
  | .div => U.div

/-- The external comparison of an `ext` line. -/
def extComparison (U : F32Unit) (f : ExtCmp) : F32 → F32 → Bool :=
  match f with
  | .eq => U.eq
  | .lt => U.lt
  | .le => U.le
  | .gt => U.gt
  | .ge => U.ge

/-- The result of one line after the lines `env`, and the request it issues, if it issues one; none for an ill-formed
line. -/
def runLine (U : F32Unit) (env : List LineResult) (l : HostLine) : Option (LineResult × List Request) :=
  match l with
  | .request o x => (lineRequest env o x).map (fun r => (.block (evalRequest r), [r]))
  | .pseudo p x =>
    match expandPseudo p with
    | some o => (lineRequest env o x).map (fun r => (.block (evalRequest r), [r]))
    | none => (fromBitsOperand env x).map (fun y => (.host y, []))
  | .ext f u v =>
    match labelPattern env u, labelPattern env v with
    | some a, some b => some (.host (extFunction U f a b), [])
    | _, _ => none
  | .extCompare f u v =>
    match labelPattern env u, labelPattern env v with
    | some a, some b => some (.verdict (extComparison U f a b), [])
    | _, _ => none

/-- The lines of a program after the lines `env`: all results, and the requests issued in order. -/
def runLines (U : F32Unit) (env : List LineResult) (p : List HostLine) : Option (List LineResult × List Request) :=
  match p with
  | [] => some (env, [])
  | l :: rest =>
    match runLine U env l with
    | none => none
    | some (y, rs) =>
      match runLines U (env ++ [y]) rest with
      | none => none
      | some (out, rs') => some (out, rs ++ rs')

/-- A whole program; none when some line is ill formed. -/
def runProgram (U : F32Unit) (p : List HostLine) : Option (List LineResult × List Request) := runLines U [] p

/-- The results the block gave, in order. -/
def blockResults (env : List LineResult) : List F32 := env.filterMap LineResult.fromBlock

end Sys2Proof.Machine
end

