-- ==== Sys2Proof/Machine/Value.lean ====
section
/-! DEFINITION. The number a pattern denotes (10_state.md rule R21). The formula is the IEEE-754 one, which the spec
supplies from general knowledge (93_implementation_defined.md G1); NO operation of the block computes with it. It is here
so that rules about magnitude (R48, R66) can be stated. Finite values are counted in units of 2^(-149), the smallest F32
subnormal, so that every finite value of either format is an integer. (PRESUMED, notes/assumptions/6.md.) -/

namespace Sys2Proof.Machine

/-- What a pattern denotes: not a number, an infinity with its sign, or a finite number of units of 2^(-149). -/
inductive Numeric where
  | nan
  | infinity (negative : Bool)
  | finite (units : Int)
deriving DecidableEq, Repr

/-- The exponent of the unit: 1 - bias - 23 = -149, the weight of the lowest mantissa bit of an F32 subnormal. -/
def unitExponent : Int := 1 - (Config.bias : Int) - (Config.f32MantissaBits : Int)

/-- The magnitude, in units of 2^(-149), of a finite pattern with exponent field `e` and mantissa field `m` of `width`
bits: rule R21 multiplied by 2^149. -/
def magnitudeUnits (width e m : Nat) : Nat :=
  if e = 0 then m * 2 ^ (Config.f32MantissaBits - width)
  else (2 ^ width + m) * 2 ^ (e - 1) * 2 ^ (Config.f32MantissaBits - width)

/-- The sign factor of rule R21. -/
def signedUnits (negative : Bool) (n : Nat) : Int :=
  if negative then -(n : Int) else (n : Int)

/-- The magnitude of a BF16 pattern read as finite. -/
def mag16 (p : BF16) : Nat :=
  magnitudeUnits Config.bf16MantissaBits (exp16 p).toNat (man16 p).toNat

/-- The magnitude of an F32 pattern read as finite. -/
def mag32 (x : F32) : Nat :=
  magnitudeUnits Config.f32MantissaBits (exp32 x).toNat (man32 x).toNat

/-- The signed value, in units of 2^(-149), of a finite BF16 pattern (rule R21). -/
def units16 (p : BF16) : Int := signedUnits (sign16 p) (mag16 p)

/-- The signed value, in units of 2^(-149), of a finite F32 pattern (rule R21). -/
def units32 (x : F32) : Int := signedUnits (sign32 x) (mag32 x)

/-- Rule R21 for BF16. -/
def value16 (p : BF16) : Numeric :=
  if isNaN16 p then .nan
  else if isInf16 p then .infinity (sign16 p)
  else .finite (units16 p)

/-- Rule R21 for F32. -/
def value32 (x : F32) : Numeric :=
  if isNaN32 x then .nan
  else if isInf32 x then .infinity (sign32 x)
  else .finite (units32 x)

end Sys2Proof.Machine
end

