-- ==== Sys2Proof/Machine/ValueType.lean ====
section
/-! DEFINITION. The value-type layer (43_value_type.md rules R70 to R82). It is SOFTWARE AROUND the block (00_scope.md
rule R7), written down because the spec gives its contract: which request it issues where, the default policy, and
comparison and arithmetic by promotion to 32 bits. The 32-bit functions are the parameter `U` (rule R75), never a body of
this model's. A value is 16 bits and nothing more (rule R70). -/

namespace Sys2Proof.Machine

/-- The low half of port `y`, where a BF16 result stands (rule R35). -/
def resultBF16 (y : F32) : BF16 := y.extractLsb' 0 16

/-- fromFloat32(x, policy) (rule R71): one request of the policy's operation. -/
def fromFloat32 (x : F32) (m : Mode) : BF16 := resultBF16 (eval (opCode (modeOp m)) x)

/-- The default policy (rule R73). -/
def defaultPolicy : Mode := .rne

/-- fromFloat32(x) with no policy given (rule R73): the pseudo-operation NARROW. -/
def fromFloat32Default (x : F32) : BF16 := fromFloat32 x defaultPolicy

/-- fromBits(pattern) (rule R72): no request, the 16 bits unchanged and unchecked. -/
def fromBits (p : BF16) : BF16 := p

/-- toFloat32() (rule R74): one WIDEN request. -/
def toFloat32 (v : BF16) : F32 := eval (opCode .widen) (packBF16 v)

/-- An arithmetic operator (rule R77): two WIDEN requests, the external operation, one RNE request. -/
def promoted (f : F32 → F32 → F32) (u v : BF16) : BF16 :=
  fromFloat32 (f (toFloat32 u) (toFloat32 v)) defaultPolicy

/-- Rule R77. -/
def valAdd (U : F32Unit) (u v : BF16) : BF16 := promoted U.add u v

/-- Rule R77. -/
def valSub (U : F32Unit) (u v : BF16) : BF16 := promoted U.sub u v

/-- Rule R77. -/
def valMul (U : F32Unit) (u v : BF16) : BF16 := promoted U.mul u v

/-- Rule R77. -/
def valDiv (U : F32Unit) (u v : BF16) : BF16 := promoted U.div u v

/-- A comparison (rule R76): two WIDEN requests and the external comparator. -/
def compared (f : F32 → F32 → Bool) (u v : BF16) : Bool := f (toFloat32 u) (toFloat32 v)

/-- Rule R76. -/
def valEq (U : F32Unit) (u v : BF16) : Bool := compared U.eq u v

/-- Rule R76. -/
def valNe (U : F32Unit) (u v : BF16) : Bool := !valEq U u v

/-- Rule R76. -/
def valLt (U : F32Unit) (u v : BF16) : Bool := compared U.lt u v

/-- Rule R76. -/
def valLe (U : F32Unit) (u v : BF16) : Bool := compared U.le u v

/-- Rule R76. -/
def valGt (U : F32Unit) (u v : BF16) : Bool := compared U.gt u v

/-- Rule R76. -/
def valGe (U : F32Unit) (u v : BF16) : Bool := compared U.ge u v

/-- Rule R75 (i): a NaN compares unequal to everything, itself included. -/
def EqFalseOnNaN (U : F32Unit) : Prop :=
  ∀ u v : F32, isNaN32 u = true ∨ isNaN32 v = true → U.eq u v = false

/-- Rule R75 (ii) for one operation. -/
def PropagatesNaN (f : F32 → F32 → F32) : Prop :=
  ∀ u v : F32, isNaN32 u = true ∨ isNaN32 v = true → isNaN32 (f u v) = true

/-- Rule R75 (ii): a NaN propagates through arithmetic. -/
def ArithPropagatesNaN (U : F32Unit) : Prop :=
  PropagatesNaN U.add ∧ PropagatesNaN U.sub ∧ PropagatesNaN U.mul ∧ PropagatesNaN U.div

/-- The infinity of a sign, in F32. -/
def inf32 (negative : Bool) : F32 := if negative then 0xFF800000#32 else 0x7F800000#32

/-- Rule R75 (iii) for a result that is an integer number `exact u v` of units: from the magnitude `limit` on, it is the
infinity of its sign. -/
def SaturatesAt (limit : Int) (f : F32 → F32 → F32) (exact : F32 → F32 → Int) : Prop :=
  ∀ u v : F32, isFinite32 u = true → isFinite32 v = true →
    (limit ≤ exact u v → f u v = inf32 false) ∧ (exact u v ≤ -limit → f u v = inf32 true)

/-- Rule R75 (iii): a result too large in magnitude is the infinity of its sign. The spec does not say from where; 2^128,
the first power of two above every finite F32 value, is this model's reading (DEDUCED, notes/assumptions/7.md). Sums are in
units of 2^(-149), products in units of 2^(-298), and a quotient is compared by cross-multiplying. -/
def ArithSaturates (U : F32Unit) : Prop :=
  SaturatesAt (2 ^ 128 * 2 ^ 149) U.add (fun u v => units32 u + units32 v) ∧
  SaturatesAt (2 ^ 128 * 2 ^ 149) U.sub (fun u v => units32 u - units32 v) ∧
  SaturatesAt (2 ^ 128 * 2 ^ 149 * 2 ^ 149) U.mul (fun u v => units32 u * units32 v) ∧
  (∀ u v : F32, isFinite32 u = true → isFinite32 v = true → mag32 v ≠ 0 →
    mag32 v * 2 ^ 128 ≤ mag32 u → U.div u v = inf32 (sign32 u ^^ sign32 v))

/-- Rule R75 (iv), the four exact results of rule R78. -/
def ArithExactResults (U : F32Unit) : Prop :=
  U.add 0x40000000#32 0x40600000#32 = 0x40B00000#32 ∧
  U.sub 0x40B00000#32 0x40600000#32 = 0x40000000#32 ∧
  U.mul 0x40000000#32 0x40600000#32 = 0x40E00000#32 ∧
  U.div 0x40E00000#32 0x40600000#32 = 0x40000000#32

/-- Rule R78: the external equality is true of equal patterns that are no NaN. -/
def EqTrueOnEqual (U : F32Unit) : Prop := ∀ u : F32, isNaN32 u = false → U.eq u u = true

/-- What the document lets a model assume of the external functions (rules R75 and R78). -/
def F32UnitConforms (U : F32Unit) : Prop :=
  EqFalseOnNaN U ∧ ArithPropagatesNaN U ∧ ArithSaturates U ∧ ArithExactResults U ∧ EqTrueOnEqual U

end Sys2Proof.Machine
end

