-- ==== Sys2Proof/Machine/Run.lean ====
section
/-! DEFINITION. A run and its observation (70_reset_and_hazards.md rule R111), element-wise array conversion
(20_memory.md rule R27), and two request streams sharing one copy of the block (rule R29 (b), 60_exceptions.md R101). -/

namespace Sys2Proof.Machine

/-- The results of an outcome; a stopped run has observed nothing (no run stops: rule R95). -/
def observedResults (o : Host.Outcome State Fault Refusal) : List F32 :=
  match o with
  | .next s => s.results
  | .fault _ => []
  | .refused _ => []

/-- The observation of the run of `rs`: one step a request (rule R111). -/
def observation (rs : List Request) : List F32 :=
  observedResults (Host.Core.run Sys2Proof.core rs.length (State.load rs))

/-- A run of the requests `rs` that has come some way: what is observed and what is left fit together. -/
def State.RunOf (rs : List Request) (s : State) : Prop :=
  ∃ done : List Request, rs = done ++ s.pending ∧ s.results = done.map evalRequest

/-- Rule R27: an array is converted element by element under one policy. -/
def narrowArray (m : Mode) (xs : List F32) : List BF16 := xs.map (narrow m)

/-- Rule R27: an array is widened element by element. -/
def widenArray (ps : List BF16) : List F32 := ps.map widen

/-- The requests of an array conversion (rule R27). -/
def narrowRequests (m : Mode) (xs : List F32) : List Request :=
  xs.map (fun x => { op := opCode (modeOp m), a := x })

/-- The requests of an array widening (rule R27). -/
def widenRequests (ps : List BF16) : List Request :=
  ps.map (fun p => { op := opCode .widen, a := packBF16 p })

/-- The part of an interleaving that belongs to the stream `k` (rule R29 (b)): `tags` says whose each element is. -/
def streamPart {α : Type} (k : Bool) (tags : List Bool) (xs : List α) : List α :=
  ((tags.zip xs).filter (fun t => t.1 == k)).map (fun t => t.2)

end Sys2Proof.Machine
end

