-- ==== Sys2Proof/Safety.lean ====
section
/-! DEFINITION. What a safe run is: it never stops with a fault or a refusal (60_exceptions.md rule R95), and every
observation is the block's function of its request (70_reset_and_hazards.md rule R111). -/

namespace Sys2Proof

/-- The run of `n` steps from `s` ends in a state, not in a fault or a refusal. -/
def SafeFor (n : Nat) (s : Machine.State) : Prop :=
  ∃ t : Machine.State, Host.Core.run core n s = .next t

/-- Every length of run from `s` is safe. -/
def Safe (s : Machine.State) : Prop := ∀ n : Nat, SafeFor n s

end Sys2Proof
end

