-- ==== Sys2Proof/Certificates/Slice0/Obligations.lean ====
section
/-! DEFINITION. What is stated about the codec, for the provers. Slices are written with extractLsb' <low bit> <length>,
single bits with getLsbD, so that a statement reads like its rule and not like the model. -/

open Sys2Proof Sys2Proof.Machine

/-! ### The request word and its decoding -/

/-- The two formats of the request word, field by field (30_encoding.md section 1; the layout and the codes are the spec's
own decisions D2 and D3): bit 34 tells the formats apart, bits 33:32 the operation, and bits 31:0 are the operand. -/
def Obligations.FormatsSplitRequestWord : Prop :=
  (∀ r : Request, (requestWord r).extractLsb' 32 3 = r.op ∧ (requestWord r).extractLsb' 0 32 = r.a) ∧
  (∀ w : ReqWord,
    (w.getLsbD 34 = false →
      (w.extractLsb' 32 2 = 0#2 → decode w = .trunc (w.extractLsb' 0 32)) ∧
      (w.extractLsb' 32 2 = 1#2 → decode w = .rn (w.extractLsb' 0 32)) ∧
      (w.extractLsb' 32 2 = 2#2 → decode w = .rne (w.extractLsb' 0 32)) ∧
      (w.extractLsb' 32 2 = 3#2 → decode w = .widen (w.extractLsb' 0 32))) ∧
    (w.getLsbD 34 = true →
      (w.getLsbD 33 = false → w.getLsbD 32 = false → decode w = .pinf (w.extractLsb' 0 32)) ∧
      (w.getLsbD 33 = false → w.getLsbD 32 = true → decode w = .ninf (w.extractLsb' 0 32)) ∧
      (w.getLsbD 33 = true → w.getLsbD 32 = false → decode w = .qnan (w.extractLsb' 0 32)) ∧
      (w.getLsbD 33 = true → w.getLsbD 32 = true → decode w = .snan (w.extractLsb' 0 32))))

/-- The match and mask columns of the opcode table (30_encoding.md section 2, decision D3) and its totality (section 4,
decision D15): a word decodes to an operation exactly when it matches that operation's row, and every word matches exactly
one row. -/
def Obligations.EveryWordHasOneOpcodeRow : Prop :=
  ∀ w : ReqWord,
    (w &&& 0x700000000#35 = 0x000000000#35 ↔ decode w = .trunc (w.extractLsb' 0 32)) ∧
    (w &&& 0x700000000#35 = 0x100000000#35 ↔ decode w = .rn (w.extractLsb' 0 32)) ∧
    (w &&& 0x700000000#35 = 0x200000000#35 ↔ decode w = .rne (w.extractLsb' 0 32)) ∧
    (w &&& 0x700000000#35 = 0x300000000#35 ↔ decode w = .widen (w.extractLsb' 0 32)) ∧
    (w &&& 0x700000000#35 = 0x400000000#35 ↔ decode w = .pinf (w.extractLsb' 0 32)) ∧
    (w &&& 0x700000000#35 = 0x500000000#35 ↔ decode w = .ninf (w.extractLsb' 0 32)) ∧
    (w &&& 0x700000000#35 = 0x600000000#35 ↔ decode w = .qnan (w.extractLsb' 0 32)) ∧
    (w &&& 0x700000000#35 = 0x700000000#35 ↔ decode w = .snan (w.extractLsb' 0 32)) ∧
    (opcodeTable.filter (fun row => rowMatches row w)).map (fun row => row.op) = [(decode w).op]

/-- Decoding the encoding of any instruction gives it back, with every bit of its operand, the ignored ones too. -/
def Obligations.DecodeInvertsEncode : Prop :=
  ∀ i : Instr, i.wellFormed = true → decode (encode i) = i

/-- Every request word decodes to a well-formed instruction whose encoding is that word: no two words share a meaning and
none is refused. -/
def Obligations.EncodeInvertsDecode : Prop :=
  ∀ w : ReqWord, (decode w).wellFormed = true ∧ encode (decode w) = w

/-- Request words written out in the spec's vectors (95_test_vectors.md part 2.8) decode to the operations they stand
for. -/
def Obligations.WordsOfTheVectorsDecode : Prop :=
  decode 0x03F848000#35 = .trunc 0x3F848000#32 ∧
  decode 0x13F848000#35 = .rn 0x3F848000#32 ∧
  decode 0x23F848000#35 = .rne 0x3F848000#32 ∧
  decode 0x300003F85#35 = .widen 0x00003F85#32 ∧
  decode 0x400000000#35 = .pinf 0#32 ∧
  decode 0x500000000#35 = .ninf 0#32 ∧
  decode 0x600000000#35 = .qnan 0#32 ∧
  decode 0x700000000#35 = .snan 0#32

/-- A number in the opcode table's numbering is decoded, and presented, as the request word of that number; a number of
more than 35 bits is no request word, is not decoded and presents nothing (the model's own reading, notes/assumptions/4.md
and 3.md). -/
def Obligations.TableWordsDecodeAndRun : Prop :=
  ∀ w : Nat, w < 2 ^ 40 →
    (w < 2 ^ 35 →
      decodeTableWord 40 w = some (decode (BitVec.ofNat 35 w)) ∧
      ∀ s : State, step (s.withFetchWord 40 w) = exec (decode (BitVec.ofNat 35 w)) s) ∧
    (2 ^ 35 ≤ w → decodeTableWord 40 w = none ∧ ∀ s : State, s.withFetchWord 40 w = s)

/-! ### One step, and a run -/

/-- A step takes the host's next request off the run and runs the operation its word decodes to. -/
def Obligations.StepRunsDecodedRequest : Prop :=
  ∀ (s : State) (r : Request) (rest : List Request), s.pending = r :: rest →
    step s = exec (decode (requestWord r)) { pending := rest, results := s.results }

/-- With no request left the run has ended and a step changes nothing (DESIGN CHOICE, notes/assumptions/2.md). -/
def Obligations.StepAfterTheRunChangesNothing : Prop :=
  ∀ s : State, s.pending = [] → step s = .next s

/-- A step, which decodes the request word field by field and runs the operation's own meaning, observes on port y exactly
the block's one combinational function of the two input ports, written from the dispatch by operation code
(10_state.md section 4, 30_encoding.md section 2; decisions D2 to D5). -/
def Obligations.StepRefinesTheDispatch : Prop :=
  ∀ (s : State) (r : Request) (rest : List Request), s.pending = r :: rest →
    s.portY = some (eval r.op r.a) ∧
    step s = .next { pending := rest, results := s.results ++ [eval r.op r.a] }

/-- A run of any list of requests ends after one step a request, and its observation is the map of the block's function
over the list (70_reset_and_hazards.md section 5, decision D24). -/
def Obligations.RunObservesTheMapOfEval : Prop :=
  ∀ rs : List Request,
    Host.Core.run Sys2Proof.core rs.length (State.load rs) =
        .next { pending := [], results := rs.map (fun r => eval r.op r.a) } ∧
    observation rs = rs.map (fun r => eval r.op r.a)

/-- Invariant of every step: what has been observed is the block's function of the requests already presented, in order,
and those with the ones left are the host's list (70_reset_and_hazards.md section 5). -/
def Obligations.StepKeepsTheRun : Prop :=
  ∀ (rs : List Request) (s t : State), s.RunOf rs → step s = .next t → t.RunOf rs

/-- The invariant holds when a run starts; the state after reset is the start of the empty run (10_state.md section 5,
decision D19). -/
def Obligations.RunStartsAtReset : Prop :=
  (∀ rs : List Request, (State.load rs).RunOf rs) ∧
  State.reset = { pending := [], results := [] } ∧ State.reset.RunOf []

/-- No request word faults, is refused or gets stuck, in any state: each has exactly one result, and no run of any length
from any state stops. -/
def Obligations.NoRequestFaultsOrIsRefused : Prop :=
  (∀ (w : ReqWord) (s : State),
    (∃ y : F32, exec (decode w) s = .next { pending := s.pending, results := s.results ++ [y] }) ∧
    (∀ y z : F32, exec (decode w) s = .next { pending := s.pending, results := s.results ++ [y] } →
      exec (decode w) s = .next { pending := s.pending, results := s.results ++ [z] } → y = z)) ∧
  (∀ s : State, Safe s)

/-- Frame of all eight operations (TRUNC, RN, RNE, WIDEN, PINF, NINF, QNAN, SNAN): the host's remaining requests and every
earlier observation stand as they were, and exactly one observation is added (there is nothing else in the block to
change: 10_state.md sections 1 and 2). -/
def Obligations.OperationsAddOneObservation : Prop :=
  ∀ (i : Instr) (s t : State), exec i s = .next t →
    t.pending = s.pending ∧ t.results.length = s.results.length + 1 ∧ t.results.take s.results.length = s.results

/-- The result of a request does not depend on any earlier or later request: the same operation in two arbitrary runs
adds the same observation (20_memory.md, decisions D13 and D14). -/
def Obligations.ResultIgnoresTheRun : Prop :=
  ∀ (i : Instr) (s t s' t' : State), exec i s = .next s' → exec i t = .next t' →
    ∃ y : F32, s'.results = s.results ++ [y] ∧ t'.results = t.results ++ [y]

/-- Any reordering of the requests of a run permutes its results and changes none, and any interleaving of two request
streams on one copy of the block gives each stream the results it would have had alone (70_reset_and_hazards.md section 5,
20_memory.md; decisions D14 and D24). -/
def Obligations.ResultsFollowTheirRequests : Prop :=
  (∀ rs rs' : List Request, rs.Perm rs' → (observation rs).Perm (observation rs')) ∧
  (∀ (tags : List Bool) (rs : List Request) (k : Bool), tags.length = rs.length →
    streamPart k tags (observation rs) = observation (streamPart k tags rs))

/-- An array is converted element by element: the run of its requests observes the map of the scalar conversion. -/
def Obligations.ArraysConvertElementwise : Prop :=
  (∀ (m : Mode) (xs : List F32),
    observation (narrowRequests m xs) = xs.map (fun x => (narrow m x).setWidth 32)) ∧
  (∀ ps : List BF16, observation (widenRequests ps) = ps.map (fun p => p ++ 0x0000#16))

/-! ### Operand fields, ignored bits and result packing -/

/-- The fields of a narrowing operand. -/
def Obligations.NarrowingOperandFields : Prop :=
  ∀ x : F32,
    hi16 x = x.extractLsb' 16 16 ∧ lo16 x = x.extractLsb' 0 16 ∧ roundBit x = x.getLsbD 15 ∧
    sticky x = x.extractLsb' 0 15 ∧ lsb x = (hi16 x).getLsbD 0 ∧ sign32 x = (hi16 x).getLsbD 15 ∧
    x = hi16 x ++ lo16 x ∧ lo16 x = BitVec.ofBool (roundBit x) ++ sticky x ∧
    (lo16 x < 0x8000#16 ↔ roundBit x = false) ∧
    (lo16 x = 0x8000#16 ↔ roundBit x = true ∧ sticky x = 0#15) ∧
    (0x8000#16 < lo16 x ↔ roundBit x = true ∧ sticky x ≠ 0#15)

/-- Bits an operation does not use have no effect: a[31:16] of WIDEN, and the whole operand of the four special values
(30_encoding.md section 3, decisions D4 and D5). -/
def Obligations.IgnoredBitsHaveNoEffect : Prop :=
  (∀ (a b : F32) (s : State), a.extractLsb' 0 16 = b.extractLsb' 0 16 → exec (.widen a) s = exec (.widen b) s) ∧
  (∀ (a b : F32) (s : State),
    exec (.pinf a) s = exec (.pinf b) s ∧ exec (.ninf a) s = exec (.ninf b) s ∧
    exec (.qnan a) s = exec (.qnan b) s ∧ exec (.snan a) s = exec (.snan b) s)

/-- Result packing (30_encoding.md section 3, decision D5): an operation other than WIDEN leaves the upper half of y zero,
and its y, fed back unchanged to WIDEN, widens the whole BF16 result. -/
def Obligations.BF16ResultsFeedBackIntoWiden : Prop :=
  ∀ (i : Instr) (s t : State), i.op ≠ .widen → exec i s = .next t →
    ∃ y : F32, t.results = s.results ++ [y] ∧ y.extractLsb' 16 16 = 0#16 ∧
      exec (.widen y) t = .next { pending := t.pending, results := t.results ++ [y.extractLsb' 0 16 ++ 0x0000#16] }

/-! ### Formats -/

/-- The BF16 layout is the upper half of the F32 layout, field by field, in both directions. -/
def Obligations.BF16LayoutIsTheUpperHalf : Prop :=
  (∀ x : F32, sign16 (x.extractLsb' 16 16) = sign32 x ∧ exp16 (x.extractLsb' 16 16) = exp32 x ∧
    man16 (x.extractLsb' 16 16) = (man32 x).extractLsb' 16 7) ∧
  (∀ p : BF16, sign32 (p ++ 0x0000#16) = sign16 p ∧ exp32 (p ++ 0x0000#16) = exp16 p ∧
    man32 (p ++ 0x0000#16) = man16 p ++ 0x0000#16)

/-- The classes of 10_state.md section 3 (derived by the spec): exactly one of NaN, infinity, zero, subnormal and normal
holds of every pattern of either format; quiet and signaling split the NaNs; and the BF16 patterns are counted by class. -/
def Obligations.PatternClassesPartition : Prop :=
  (∀ x : F32, [isNaN32 x, isInf32 x, isZero32 x, isSub32 x, isNormal32 x].count true = 1 ∧
    isNaN32 x = (isQuiet32 x ^^ isSignaling32 x) ∧ isFinite32 x = !(isNaN32 x || isInf32 x)) ∧
  (∀ p : BF16, [isNaN16 p, isInf16 p, isZero16 p, isSub16 p, isNormal16 p].count true = 1 ∧
    isNaN16 p = (isQuiet16 p ^^ isSignaling16 p) ∧ isFinite16 p = !(isNaN16 p || isInf16 p)) ∧
  (∀ s : Bool, Nat.card { p : BF16 // isQuiet16 p = true ∧ sign16 p = s } = 64 ∧
    Nat.card { p : BF16 // isSignaling16 p = true ∧ sign16 p = s } = 63) ∧
  Nat.card { p : BF16 // isInf16 p = true } = 2 ∧ Nat.card { p : BF16 // isZero16 p = true } = 2 ∧
  Nat.card { p : BF16 // isSub16 p = true } = 254 ∧ Nat.card { p : BF16 // isNormal16 p = true } = 65024

/-- The integer count of units of 2^(-149) that the model uses for a finite pattern is the value formula of 10_state.md
section 3, which the spec supplies from general knowledge (93_implementation_defined.md G1; notes/assumptions/6.md). -/
def Obligations.UnitsFollowTheValueFormula : Prop :=
  (∀ x : F32, isFinite32 x = true →
    (units32 x : ℚ) * (2 : ℚ) ^ (-149 : ℤ) =
      (if x.getLsbD 31 then -1 else 1) *
        (if exp32 x = 0#8 then (2 : ℚ) ^ (-126 : ℤ) * (((man32 x).toNat : ℚ) / 2 ^ 23)
         else (2 : ℚ) ^ (((exp32 x).toNat : ℤ) - 127) * (1 + ((man32 x).toNat : ℚ) / 2 ^ 23))) ∧
  (∀ p : BF16, isFinite16 p = true →
    (units16 p : ℚ) * (2 : ℚ) ^ (-149 : ℤ) =
      (if p.getLsbD 15 then -1 else 1) *
        (if exp16 p = 0#8 then (2 : ℚ) ^ (-126 : ℤ) * (((man16 p).toNat : ℚ) / 2 ^ 7)
         else (2 : ℚ) ^ (((exp16 p).toNat : ℤ) - 127) * (1 + ((man16 p).toNat : ℚ) / 2 ^ 7)))

/-! ### The rounder -/

/-- The increment decision, policy by policy, in the document's words. -/
def Obligations.IncrementDecision : Prop :=
  ∀ (rb l : Bool) (st : BitVec 15),
    inc .trunc rb st l = false ∧
    (rb = true → inc .rn rb st l = true) ∧ (rb = false → inc .rn rb st l = false) ∧
    (rb = false → inc .rne rb st l = false) ∧
    (rb = true → st ≠ 0#15 → inc .rne rb st l = true) ∧
    (rb = true → st = 0#15 → inc .rne rb st l = l)

/-- The rounder is the incrementer under the decision, with lsb the lowest bit of hi16, and the unguarded narrowing is its
output on the operand's fields. -/
def Obligations.RounderComposesDecisionAndIncrement : Prop :=
  (∀ (m : Mode) (hi : BF16) (rb : Bool) (st : BitVec 15),
    rounder m hi rb st = incr16 hi (inc m rb st (hi.getLsbD 0))) ∧
  (∀ (m : Mode) (x : F32),
    rawNarrow m x = (rounder m (x.extractLsb' 16 16) (x.getLsbD 15) (x.extractLsb' 0 15)).1)

/-- The decision as a table over the discarded half (40_rounder.md, derived there): below the midpoint none of the policies
increments, past it both rounding policies do, and they differ exactly on a tie with an even neighbour below; after RNE has
decided a tie the retained lowest bit is 0. -/
def Obligations.DecisionOverTheDiscardedHalf : Prop :=
  ∀ x : F32,
    (∀ m : Mode, x.extractLsb' 0 16 < 0x8000#16 → inc m (roundBit x) (sticky x) (lsb x) = false) ∧
    inc .trunc (roundBit x) (sticky x) (lsb x) = false ∧
    (0x8000#16 ≤ x.extractLsb' 0 16 → inc .rn (roundBit x) (sticky x) (lsb x) = true) ∧
    (0x8000#16 < x.extractLsb' 0 16 → inc .rne (roundBit x) (sticky x) (lsb x) = true) ∧
    (x.extractLsb' 0 16 = 0x8000#16 → inc .rne (roundBit x) (sticky x) (lsb x) = x.getLsbD 16 ∧
      (rawNarrow .rne x).getLsbD 0 = false) ∧
    (inc .rn (roundBit x) (sticky x) (lsb x) ≠ inc .rne (roundBit x) (sticky x) (lsb x) ↔
      x.extractLsb' 0 16 = 0x8000#16 ∧ x.getLsbD 16 = false)

/-- The incrementer adds modulo 2^16 and its carry out is 1 exactly on 0xFFFF + 1 (40_rounder.md, decision D7). -/
def Obligations.IncrementerWrapsAt16Bits : Prop :=
  ∀ (v : BF16) (i : Bool),
    (incr16 v i).1 = v + (BitVec.ofBool i).setWidth 16 ∧
    ((incr16 v i).2 = true ↔ v = 0xFFFF#16 ∧ i = true) ∧
    (incr16 v i).1.toNat + 65536 * (incr16 v i).2.toNat = v.toNat + i.toNat

/-- An increment of a mantissa of all ones carries into the exponent and resets the mantissa, at every exponent; of the
largest finite magnitude it gives the infinity of its sign; any other increment stays in the mantissa (40_rounder.md; the
form in bits is derived there). -/
def Obligations.MantissaCarryIncrementsExponent : Prop :=
  ∀ v : BF16,
    (v.extractLsb' 0 7 = 0x7F#7 → (incr16 v true).1.extractLsb' 0 7 = 0#7 ∧
      (incr16 v true).1.extractLsb' 7 9 = v.extractLsb' 7 9 + 1#9) ∧
    (v.extractLsb' 0 7 ≠ 0x7F#7 → (incr16 v true).1.extractLsb' 0 7 = v.extractLsb' 0 7 + 1#7 ∧
      (incr16 v true).1.extractLsb' 7 9 = v.extractLsb' 7 9) ∧
    (v.extractLsb' 0 15 = 0x7F7F#15 → (incr16 v true).1.extractLsb' 0 15 = 0x7F80#15 ∧
      (incr16 v true).1.getLsbD 15 = v.getLsbD 15)

/-- The carry never reaches the sign bit of an operand that is no NaN; it changes the sign bit of the unguarded result
exactly for the NaNs with all ones below the sign that are incremented (40_rounder.md, derived there). -/
def Obligations.CarryReachesTheSignOnlyOfNaNs : Prop :=
  ∀ (m : Mode) (x : F32),
    (isNaN32 x = false → (rawNarrow m x).getLsbD 15 = x.getLsbD 31 ∧
      (incr16 (hi16 x) (inc m (roundBit x) (sticky x) (lsb x))).2 = false) ∧
    ((rawNarrow m x).getLsbD 15 ≠ x.getLsbD 31 ↔
      x.extractLsb' 16 15 = 0x7FFF#15 ∧ inc m (roundBit x) (sticky x) (lsb x) = true)

/-- Direction of rounding in value terms (40_rounder.md, derived there, over the value formula of general knowledge G1):
patterns of one sign are ordered by magnitude; TRUNC never increases a magnitude; for a finite result, RN and RNE are at
least as near to the operand as any finite BF16 value; on an exact tie RN goes away from zero and RNE to the neighbour with
lowest bit 0. -/
def Obligations.RoundingIsToNearest : Prop :=
  (∀ u v : F32, isFinite32 u = true → isFinite32 v = true →
    ((u.extractLsb' 0 31).toNat < (v.extractLsb' 0 31).toNat ↔ mag32 u < mag32 v)) ∧
  (∀ x : F32, isFinite32 x = true → (units16 (narrow .trunc x)).natAbs ≤ (units32 x).natAbs) ∧
  (∀ (m : Mode) (x : F32) (q : BF16), m ≠ .trunc → isFinite32 x = true → isFinite16 (narrow m x) = true →
    isFinite16 q = true →
    (units16 (narrow m x) - units32 x).natAbs ≤ (units16 q - units32 x).natAbs) ∧
  (∀ x : F32, isFinite32 x = true → x.extractLsb' 0 16 = 0x8000#16 →
    (isFinite16 (narrow .rn x) = true → (units32 x).natAbs < (units16 (narrow .rn x)).natAbs) ∧
    (narrow .rne x).getLsbD 0 = false)

/-! ### Narrowing -/

/-- The unguarded result in single-adder form (41_narrowing.md section 1, derived there). -/
def Obligations.SingleAdderForms : Prop :=
  ∀ x : F32,
    rawNarrow .trunc x = x.extractLsb' 16 16 ∧
    rawNarrow .rn x = (x + 0x00008000#32).extractLsb' 16 16 ∧
    rawNarrow .rne x = (x + 0x00007FFF#32 + (x.extractLsb' 16 1).setWidth 32).extractLsb' 16 16

/-- What every narrowing guarantees (41_narrowing.md section 1; that a non-NaN never becomes a NaN is derived there, and
the guard that makes the rest true is decision D6): the sign is kept, an infinity stays an infinity, a NaN stays a NaN and
nothing else becomes one, for EVERY well-formed pair of NaN constants. -/
def Obligations.NarrowingKeepsSignInfinityAndNaN : Prop :=
  ∀ P : NaNParams, P.wellFormed = true → ∀ (m : Mode) (x : F32),
    (narrowWith P m x).getLsbD 15 = x.getLsbD 31 ∧
    (isInf32 x = true → isInf16 (narrowWith P m x) = true) ∧
    (isNaN32 x = true → isNaN16 (narrowWith P m x) = true) ∧
    (isNaN16 (narrowWith P m x) = true → isNaN32 x = true)

/-- TRUNC completes in every state with the upper half of its operand, except that a NaN whose payload lies in the lower
half gives 0x7FC0 with the operand's sign. The exception is the spec's own choice: the guard is decision D6 and the pattern
decision D8 (41_narrowing.md sections 1 and 2, 92_eei_decisions.md; notes/assumptions/5.md); the packing of y is decision D5
(notes/assumptions/13.md). -/
def Obligations.TruncRunsToTheUpperHalf : Prop :=
  ∀ (a : F32) (s : State),
    exec (.trunc a) s = .next { pending := s.pending, results := s.results ++ [BitVec.setWidth 32
      (if isNaN32 a = true ∧ a.extractLsb' 16 7 = 0#7 then BitVec.ofBool (a.getLsbD 31) ++ 0x7FC0#15
       else a.extractLsb' 16 16)] }

/-- RN completes in every state: the upper half, plus one when the round bit is set; a NaN that this would turn into an
infinity or a zero gives 0x7FC0 with the operand's sign. What a NaN gives is derived by the spec (41_narrowing.md section 3)
from its own choices, the guard of decision D6 and the pattern of decision D8 (notes/assumptions/5.md); the packing of y is
decision D5 (notes/assumptions/13.md). -/
def Obligations.RnRunsToTheRoundedHalf : Prop :=
  ∀ (a : F32) (s : State),
    exec (.rn a) s = .next { pending := s.pending, results := s.results ++ [BitVec.setWidth 32
      (if isNaN32 a = true ∧ (a.extractLsb' 16 7 = 0#7 ∧ a.getLsbD 15 = false ∨
            a.extractLsb' 16 7 = 0x7F#7 ∧ a.getLsbD 15 = true)
       then BitVec.ofBool (a.getLsbD 31) ++ 0x7FC0#15
       else if a.getLsbD 15 = true then a.extractLsb' 16 16 + 1#16
       else a.extractLsb' 16 16)] }

/-- RNE completes in every state: the upper half, plus one past the midpoint, and on an exact tie plus one only when the
lowest retained bit is 1; a NaN that this would turn into an infinity or a zero gives 0x7FC0 with the operand's sign. What a
NaN gives is derived by the spec (41_narrowing.md section 3) from its own choices, the guard of decision D6 and the pattern
of decision D8 (notes/assumptions/5.md); the packing of y is decision D5 (notes/assumptions/13.md). -/
def Obligations.RneRunsToTheNearestEvenHalf : Prop :=
  ∀ (a : F32) (s : State),
    exec (.rne a) s = .next { pending := s.pending, results := s.results ++ [BitVec.setWidth 32
      (if isNaN32 a = true ∧
          (a.extractLsb' 16 7 = 0#7 ∧ ¬(a.getLsbD 15 = true ∧ (a.extractLsb' 0 15 ≠ 0#15 ∨ a.getLsbD 16 = true)) ∨
            a.extractLsb' 16 7 = 0x7F#7 ∧ a.getLsbD 15 = true)
       then BitVec.ofBool (a.getLsbD 31) ++ 0x7FC0#15
       else if a.getLsbD 15 = true ∧ (a.extractLsb' 0 15 ≠ 0#15 ∨ a.getLsbD 16 = true)
       then a.extractLsb' 16 16 + 1#16
       else a.extractLsb' 16 16)] }

/-- Infinity operands under all three policies: the result is hi16. -/
def Obligations.InfinitiesNarrowToInfinities : Prop :=
  ∀ m : Mode, narrow m 0x7F800000#32 = 0x7F80#16 ∧ narrow m 0xFF800000#32 = 0xFF80#16

/-- NaN operands, the complete case analysis (41_narrowing.md section 3, derived there; the guard is decision D6), for every
well-formed pair of constants, and where the quiet or signaling status changes under the decided pair (decision D8,
notes/assumptions/5.md). -/
def Obligations.NaNOperandCases : Prop :=
  (∀ P : NaNParams, P.wellFormed = true → ∀ (m : Mode) (x : F32) (i : Bool), isNaN32 x = true →
    inc m (roundBit x) (sticky x) (lsb x) = i →
    (x.extractLsb' 16 7 = 0x00#7 → i = false →
      rawNarrow m x = BitVec.ofBool (x.getLsbD 31) ++ 0x7F80#15 ∧
      narrowWith P m x = BitVec.ofBool (x.getLsbD 31) ++ P.qnan.extractLsb' 0 15) ∧
    (x.extractLsb' 16 7 = 0x00#7 → i = true →
      rawNarrow m x = BitVec.ofBool (x.getLsbD 31) ++ 0x7F81#15 ∧ narrowWith P m x = rawNarrow m x) ∧
    (0x01#7 ≤ x.extractLsb' 16 7 → x.extractLsb' 16 7 ≤ 0x7E#7 → i = false →
      rawNarrow m x = BitVec.ofBool (x.getLsbD 31) ++ 0xFF#8 ++ x.extractLsb' 16 7 ∧
      narrowWith P m x = rawNarrow m x) ∧
    (0x01#7 ≤ x.extractLsb' 16 7 → x.extractLsb' 16 7 ≤ 0x7E#7 → i = true →
      rawNarrow m x = BitVec.ofBool (x.getLsbD 31) ++ 0xFF#8 ++ (x.extractLsb' 16 7 + 1#7) ∧
      narrowWith P m x = rawNarrow m x) ∧
    (x.extractLsb' 16 7 = 0x7F#7 → i = false →
      rawNarrow m x = BitVec.ofBool (x.getLsbD 31) ++ 0x7FFF#15 ∧ narrowWith P m x = rawNarrow m x) ∧
    (x.extractLsb' 16 7 = 0x7F#7 → i = true →
      rawNarrow m x = (if x.getLsbD 31 = true then 0x0000#16 else 0x8000#16) ∧
      narrowWith P m x = BitVec.ofBool (x.getLsbD 31) ++ P.qnan.extractLsb' 0 15)) ∧
  (∀ (m : Mode) (x : F32), isNaN32 x = true →
    (isQuiet16 (narrow m x) ≠ isQuiet32 x ↔
      x.extractLsb' 16 7 = 0x00#7 ∧ inc m (roundBit x) (sticky x) (lsb x) = false ∨
      x.extractLsb' 16 7 = 0x3F#7 ∧ inc m (roundBit x) (sticky x) (lsb x) = true))

/-- Zero and subnormal operands: the sign of zero is kept, and every operand that is no infinity or NaN, the subnormals and
tiny normals among them, is sliced and incremented alike, with no flush to zero; the results of the rule's examples. -/
def Obligations.SubnormalsAreNotFlushed : Prop :=
  (∀ m : Mode, narrow m 0x00000000#32 = 0x0000#16 ∧ narrow m 0x80000000#32 = 0x8000#16 ∧
    narrow m 0x00007FFF#32 = 0x0000#16) ∧
  (∀ (m : Mode) (x : F32), x.extractLsb' 23 8 ≠ 0xFF#8 →
    narrow m x = x.extractLsb' 16 16 +
      (if inc m (x.getLsbD 15) (x.extractLsb' 0 15) (x.getLsbD 16) then 1#16 else 0#16)) ∧
  narrow .trunc 0x00018000#32 = 0x0001#16 ∧ narrow .rn 0x00018000#32 = 0x0002#16 ∧
  narrow .rne 0x00018000#32 = 0x0002#16 ∧ narrow .trunc 0x007F8000#32 = 0x007F#16 ∧
  narrow .rn 0x007F8000#32 = 0x0080#16 ∧ narrow .rne 0x007F8000#32 = 0x0080#16

/-- Large finite operands: RN and RNE give the infinity of the sign from 0x7F7F8000 on and a finite result below, TRUNC
always a finite result. -/
def Obligations.LargeFiniteOperands : Prop :=
  ∀ x : F32, isFinite32 x = true →
    (∀ m : Mode, m ≠ .trunc → 0x7F7F8000#31 ≤ x.extractLsb' 0 31 →
      narrow m x = (if x.getLsbD 31 = true then 0xFF80#16 else 0x7F80#16)) ∧
    (∀ m : Mode, x.extractLsb' 0 31 < 0x7F7F8000#31 → isFinite16 (narrow m x) = true) ∧
    isFinite16 (narrow .trunc x) = true

/-- No operand's sign is changed, by any policy. -/
def Obligations.SignIsNeverChanged : Prop :=
  ∀ (m : Mode) (x : F32), (narrow m x).getLsbD 15 = x.getLsbD 31

/-- The operands on which the guard acts, exactly, and how many they are (41_narrowing.md section 4, derived there; the
guard is decision D6): elsewhere narrow and the literal algorithm agree; where it acts the literal result is an infinity
of the operand's sign (operand signaling) or a zero of the other sign (operand quiet). -/
def Obligations.GuardActsExactlyHere : Prop :=
  (∀ x : F32,
    (narrow .trunc x ≠ rawNarrow .trunc x ↔
      0x7F800001#31 ≤ x.extractLsb' 0 31 ∧ x.extractLsb' 0 31 ≤ 0x7F80FFFF#31) ∧
    (narrow .rn x ≠ rawNarrow .rn x ↔
      0x7F800001#31 ≤ x.extractLsb' 0 31 ∧ x.extractLsb' 0 31 ≤ 0x7F807FFF#31 ∨ 0x7FFF8000#31 ≤ x.extractLsb' 0 31) ∧
    (narrow .rne x ≠ rawNarrow .rne x ↔
      0x7F800001#31 ≤ x.extractLsb' 0 31 ∧ x.extractLsb' 0 31 ≤ 0x7F808000#31 ∨ 0x7FFF8000#31 ≤ x.extractLsb' 0 31)) ∧
  (∀ (m : Mode) (x : F32), narrow m x ≠ rawNarrow m x →
    (isSignaling32 x = true ∧ rawNarrow m x = BitVec.ofBool (x.getLsbD 31) ++ 0x7F80#15 ∨
     isQuiet32 x = true ∧ rawNarrow m x = BitVec.ofBool (!x.getLsbD 31) ++ 0x0000#15)) ∧
  Nat.card { x : F32 // narrow .trunc x ≠ rawNarrow .trunc x } = 131070 ∧
  Nat.card { x : F32 // narrow .rn x ≠ rawNarrow .rn x } = 131070 ∧
  Nat.card { x : F32 // narrow .rne x ≠ rawNarrow .rne x } = 131072

/-- Round trips (41_narrowing.md section 4 and 42_widening.md, derived there): narrowing a widened pattern gives it back,
NaNs included; an operand with a zero low half comes back and is narrowed alike by all policies; any other operand does not
come back; TRUNC then WIDEN clears the low half of an operand that is no NaN. -/
def Obligations.RoundTrips : Prop :=
  (∀ (m : Mode) (p : BF16), narrow m (widen p) = p) ∧
  (∀ (m : Mode) (x : F32), widen (narrow m x) = x ↔ x.extractLsb' 0 16 = 0#16) ∧
  (∀ (m : Mode) (x : F32), x.extractLsb' 0 16 = 0#16 → narrow m x = x.extractLsb' 16 16) ∧
  (∀ x : F32, isNaN32 x = false → widen (narrow .trunc x) = x.extractLsb' 16 16 ++ 0x0000#16)

/-- The three results are ordered and at most one apart, TRUNC keeps the magnitude bits, and the error of a round trip is
bounded in pattern units (41_narrowing.md section 4, derived there). -/
def Obligations.PoliciesAreOrderedWithBoundedError : Prop :=
  ∀ x : F32, isNaN32 x = false →
    (narrow .trunc x).toNat ≤ (narrow .rne x).toNat ∧ (narrow .rne x).toNat ≤ (narrow .rn x).toNat ∧
    (narrow .rn x).toNat ≤ (narrow .trunc x).toNat + 1 ∧
    (narrow .trunc x).extractLsb' 0 15 = x.extractLsb' 16 15 ∧
    (-0xFFFF ≤ ((widen (narrow .trunc x)).toNat : Int) - x.toNat ∧ ((widen (narrow .trunc x)).toNat : Int) - x.toNat ≤ 0) ∧
    (-0x7FFF ≤ ((widen (narrow .rn x)).toNat : Int) - x.toNat ∧ ((widen (narrow .rn x)).toNat : Int) - x.toNat ≤ 0x8000) ∧
    (-0x8000 ≤ ((widen (narrow .rne x)).toNat : Int) - x.toNat ∧ ((widen (narrow .rne x)).toNat : Int) - x.toNat ≤ 0x8000)

/-- Narrowing is monotone on the operands of one sign that are no NaNs (41_narrowing.md section 4, derived there). -/
def Obligations.NarrowingIsMonotone : Prop :=
  ∀ (m : Mode) (x z : F32), isNaN32 x = false → isNaN32 z = false → x.getLsbD 31 = z.getLsbD 31 →
    x.toNat ≤ z.toNat → (narrow m x).toNat ≤ (narrow m z).toNat

/-! ### Widening -/

/-- WIDEN completes in every state with its 16-bit operand in the upper half and zero below; the fields are kept. -/
def Obligations.WidenRunsToThePaddedPattern : Prop :=
  (∀ (a : F32) (s : State),
    exec (.widen a) s = .next { pending := s.pending, results := s.results ++ [a.extractLsb' 0 16 ++ 0x0000#16] }) ∧
  (∀ p : BF16, widen p = p ++ 0x0000#16 ∧ sign32 (widen p) = sign16 p ∧ exp32 (widen p) = exp16 p ∧
    man32 (widen p) = man16 p ++ 0x0000#16)

/-- Widening is exact (42_widening.md, derived there): injective, with the patterns of zero low half as its image, keeping
every class, the sign and the numeric value. That the value is kept rests on the value formula, which the spec supplies from
general knowledge (93_implementation_defined.md G1; PRESUMED, notes/assumptions/6.md). -/
def Obligations.WideningIsExact : Prop :=
  (∀ p q : BF16, widen p = widen q → p = q) ∧
  (∀ x : F32, (∃ p : BF16, widen p = x) ↔ x.extractLsb' 0 16 = 0#16) ∧
  (∀ p : BF16, isNaN32 (widen p) = isNaN16 p ∧ isInf32 (widen p) = isInf16 p ∧ isZero32 (widen p) = isZero16 p ∧
    isSub32 (widen p) = isSub16 p ∧ isNormal32 (widen p) = isNormal16 p ∧ isFinite32 (widen p) = isFinite16 p ∧
    isQuiet32 (widen p) = isQuiet16 p ∧ isSignaling32 (widen p) = isSignaling16 p ∧
    sign32 (widen p) = sign16 p ∧ value32 (widen p) = value16 p)

/-- The corner cases of widening (42_widening.md): zeros, subnormals, infinities; a NaN keeps its payload in the top seven
mantissa bits with zero below, and a signaling one stays signaling. That a subnormal keeps its value rests on the value
formula, which the spec supplies from general knowledge (93_implementation_defined.md G1; PRESUMED, notes/assumptions/6.md). -/
def Obligations.WideningCornerCases : Prop :=
  widen 0x0000#16 = 0x00000000#32 ∧ widen 0x8000#16 = 0x80000000#32 ∧ widen 0x0001#16 = 0x00010000#32 ∧
  widen 0x7F80#16 = 0x7F800000#32 ∧ widen 0xFF80#16 = 0xFF800000#32 ∧ widen 0x7FA0#16 = 0x7FA00000#32 ∧
  (∀ p : BF16, isSub16 p = true → isSub32 (widen p) = true ∧ value32 (widen p) = value16 p) ∧
  (∀ p : BF16, isNaN16 p = true → isNaN32 (widen p) = true ∧ (widen p).extractLsb' 16 7 = p.extractLsb' 0 7 ∧
    (widen p).extractLsb' 0 16 = 0#16) ∧
  (∀ p : BF16, isSignaling16 p = true → isSignaling32 (widen p) = true)

/-! ### Special values -/

/-- PINF and NINF complete in every state, whatever stands on the operand port, with the infinity of their sign. -/
def Obligations.InfinityConstantsRun : Prop :=
  (∀ (a : F32) (s : State),
    exec (.pinf a) s = .next { pending := s.pending, results := s.results ++ [0x00007F80#32] } ∧
    exec (.ninf a) s = .next { pending := s.pending, results := s.results ++ [0x0000FF80#32] }) ∧
  isInf16 0x7F80#16 = true ∧ sign16 0x7F80#16 = false ∧ widen 0x7F80#16 = 0x7F800000#32 ∧
  isInf16 0xFF80#16 = true ∧ sign16 0xFF80#16 = true ∧ widen 0xFF80#16 = 0xFF800000#32

/-- QNAN and SNAN complete in every state, whatever stands on the operand port, with the patterns the spec decides
(44_special_values.md, decisions D8 and D9), which are a quiet and a signaling NaN. -/
def Obligations.NaNConstantsRun : Prop :=
  (∀ (a : F32) (s : State),
    exec (.qnan a) s = .next { pending := s.pending, results := s.results ++ [0x00007FC0#32] } ∧
    exec (.snan a) s = .next { pending := s.pending, results := s.results ++ [0x00007FA0#32] }) ∧
  isQuiet16 0x7FC0#16 = true ∧ isSignaling16 0x7FA0#16 = true

/-- Well-formedness of the NaN constants: exactly the field conditions, 128 and 126 patterns, and the decided pair meets
them. -/
def Obligations.WellFormedNaNConstants : Prop :=
  (∀ P : NaNParams, P.wellFormed = true ↔
    P.qnan.extractLsb' 7 8 = 0xFF#8 ∧ P.qnan.getLsbD 6 = true ∧
    P.snan.extractLsb' 7 8 = 0xFF#8 ∧ P.snan.getLsbD 6 = false ∧ P.snan.extractLsb' 0 6 ≠ 0#6) ∧
  Nat.card { p : BF16 // quietPatternOk p = true } = 128 ∧
  Nat.card { p : BF16 // signalingPatternOk p = true } = 126 ∧
  Config.decided.wellFormed = true

/-- The generator's contract (44_special_values.md; that isnan and isinf are the field predicates is decision D23), for
every well-formed pair of constants, and its agreement with the rounder: the infinities RN and RNE round up to are its
constants, and narrowing a widened constant returns it. -/
def Obligations.GeneratorContract : Prop :=
  (isInf32 (widen 0x7F80#16) = true ∧ (widen 0x7F80#16).getLsbD 31 = false ∧
    isInf32 (widen 0xFF80#16) = true ∧ (widen 0xFF80#16).getLsbD 31 = true) ∧
  (∀ P : NaNParams, P.wellFormed = true →
    isNaN32 (widen P.qnan) = true ∧ isQuiet32 (widen P.qnan) = true ∧
    isNaN32 (widen P.snan) = true ∧ isSignaling32 (widen P.snan) = true ∧
    ∀ (m : Mode) (c : BF16), c = 0x7F80#16 ∨ c = 0xFF80#16 ∨ c = P.qnan ∨ c = P.snan →
      narrowWith P m (widen c) = c) ∧
  (∀ m : Mode, m ≠ .trunc → narrow m 0x7F7FFFFF#32 = 0x7F80#16 ∧ narrow m 0xFF7FFFFF#32 = 0xFF80#16)

/-! ### The value-type layer, the host's buffers and programs (outside the block) -/

/-- Construction and promotion issue the requests the contract names: fromFloat32 is the low half of the answer to its
policy's request, which is the narrowing; fromBits gives its 16 bits unchanged and unchecked; toFloat32 is the answer to a
WIDEN request, which is the widening. -/
def Obligations.ValueConstruction : Prop :=
  (∀ x : F32,
    fromFloat32 x .trunc = (eval 0b000#3 x).extractLsb' 0 16 ∧
    fromFloat32 x .rn = (eval 0b001#3 x).extractLsb' 0 16 ∧
    fromFloat32 x .rne = (eval 0b010#3 x).extractLsb' 0 16) ∧
  (∀ (x : F32) (m : Mode), fromFloat32 x m = narrow m x) ∧
  (∀ p : BF16, fromBits p = p) ∧
  (∀ v : BF16, toFloat32 v = eval 0b011#3 (v.setWidth 32) ∧ toFloat32 v = widen v)

/-- A construction with no policy is round-to-nearest-even (43_value_type.md, decision D22). -/
def Obligations.DefaultPolicyIsNearestEven : Prop :=
  ∀ x : F32, fromFloat32Default x = narrow .rne x

/-- Arithmetic promotes both operands, performs the 32-bit operation and narrows the result by the default policy, whatever
the 32-bit unit is. -/
def Obligations.ArithmeticPromotesAndNarrows : Prop :=
  ∀ (U : F32Unit) (u v : BF16),
    valAdd U u v = narrow .rne (U.add (widen u) (widen v)) ∧
    valSub U u v = narrow .rne (U.sub (widen u) (widen v)) ∧
    valMul U u v = narrow .rne (U.mul (widen u) (widen v)) ∧
    valDiv U u v = narrow .rne (U.div (widen u) (widen v))

/-- Comparison promotes both operands and compares in 32 bits; where the 32-bit equality is false on a NaN, a NaN value is
unequal to everything, itself included. -/
def Obligations.ComparisonPromotes : Prop :=
  (∀ (U : F32Unit) (u v : BF16),
    valEq U u v = U.eq (widen u) (widen v) ∧ valNe U u v = !valEq U u v ∧
    valLt U u v = U.lt (widen u) (widen v) ∧ valLe U u v = U.le (widen u) (widen v) ∧
    valGt U u v = U.gt (widen u) (widen v) ∧ valGe U u v = U.ge (widen u) (widen v)) ∧
  (∀ (U : F32Unit) (u v : BF16), EqFalseOnNaN U → isNaN16 u = true →
    valEq U u v = false ∧ valEq U v u = false ∧ valEq U u u = false)

/-- A NaN operand gives a NaN result of every arithmetic operator, where the 32-bit operations propagate NaNs. -/
def Obligations.ValueArithmeticPropagatesNaN : Prop :=
  ∀ (U : F32Unit) (u v : BF16), ArithPropagatesNaN U → (isNaN16 u = true ∨ isNaN16 v = true) →
    isNaN16 (valAdd U u v) = true ∧ isNaN16 (valSub U u v) = true ∧
    isNaN16 (valMul U u v) = true ∧ isNaN16 (valDiv U u v) = true

/-- The document's arithmetic property, 2.0 + 3.5 == 5.5 and its three companions, as equality in the value type
(43_value_type.md; the reading of the decimals as patterns is general knowledge G3). -/
def Obligations.ArithmeticPropertyHolds : Prop :=
  ∀ U : F32Unit, ArithExactResults U → EqTrueOnEqual U →
    valEq U (valAdd U 0x4000#16 0x4060#16) 0x40B0#16 = true ∧
    valEq U (valSub U 0x40B0#16 0x4060#16) 0x4000#16 = true ∧
    valEq U (valMul U 0x4000#16 0x4060#16) 0x40E0#16 = true ∧
    valEq U (valDiv U 0x40E0#16 0x4060#16) 0x4000#16 = true

/-- Where the 32-bit operations saturate to infinity, a sum, difference, product or quotient of finite values whose exact
magnitude is at least 2^128 is, narrowed back, the infinity of its sign (43_value_type.md; the threshold 2^128 is this
model's reading, notes/assumptions/7.md; the exact value is the formula of general knowledge G1, notes/assumptions/6.md). -/
def Obligations.OverflowingArithmeticGivesInfinity : Prop :=
  ∀ (U : F32Unit) (u v : BF16), ArithSaturates U → isFinite16 u = true → isFinite16 v = true →
    (2 ^ 128 * 2 ^ 149 ≤ units16 u + units16 v → valAdd U u v = 0x7F80#16) ∧
    (units16 u + units16 v ≤ -(2 ^ 128 * 2 ^ 149) → valAdd U u v = 0xFF80#16) ∧
    (2 ^ 128 * 2 ^ 149 ≤ units16 u - units16 v → valSub U u v = 0x7F80#16) ∧
    (units16 u - units16 v ≤ -(2 ^ 128 * 2 ^ 149) → valSub U u v = 0xFF80#16) ∧
    (2 ^ 128 * 2 ^ 149 * 2 ^ 149 ≤ units16 u * units16 v → valMul U u v = 0x7F80#16) ∧
    (units16 u * units16 v ≤ -(2 ^ 128 * 2 ^ 149 * 2 ^ 149) → valMul U u v = 0xFF80#16) ∧
    (mag16 v ≠ 0 → mag16 v * 2 ^ 128 ≤ mag16 u →
      valDiv U u v = (if (sign16 u ^^ sign16 v) = true then 0xFF80#16 else 0x7F80#16))

/-- A host's stored elements read back in either byte order, and a stored BF16 element is the more significant half of the
stored F32 it widens to (20_memory.md; ELEM_BYTE_ORDER is left open by the spec, decision D12, so both orders are
covered). -/
def Obligations.StoredElementsReadBack : Prop :=
  ∀ o : ByteOrder,
    (∀ p : BF16, loadBF16 o (storeBF16 o p) = some p ∧ storeBF16 o p = upperBytes o (storeF32 o (widen p))) ∧
    (∀ x : F32, loadF32 o (storeF32 o x) = some x) ∧
    (∀ x : F32, loadBF16 o (upperBytes o (storeF32 o x)) = some (x.extractLsb' 16 16))

/-- A host's program (30_encoding.md section 5, decision D16): whatever the external unit, the run of the requests it issues
observes exactly the results its request lines hold. -/
def Obligations.HostProgramsObserveTheirRequests : Prop :=
  ∀ (U : F32Unit) (p : List HostLine) (env : List LineResult) (rs : List Request),
    runProgram U p = some (env, rs) → observation rs = blockResults env
end

