-- ==== Sys2Proof/Laws/Fields.lean ====
section
/-! SUPPORT. Every field as arithmetic on the pattern read as an unsigned integer (30_encoding.md rule R33), so that
later proofs are linear arithmetic. -/

namespace Sys2Proof.Machine

/-- Bit `i` of a vector as arithmetic. -/
theorem getLsbD_eq_decide {w : Nat} (x : BitVec w) (i : Nat) :
    x.getLsbD i = decide (x.toNat / 2 ^ i % 2 = 1) := by
  rw [BitVec.getLsbD, Nat.testBit_eq_decide_div_mod_eq]

/-- A slice as arithmetic. -/
theorem extractLsb'_toNat_div_mod {w : Nat} (x : BitVec w) (lo len : Nat) :
    (x.extractLsb' lo len).toNat = x.toNat / 2 ^ lo % 2 ^ len := by
  rw [BitVec.extractLsb'_toNat, Nat.shiftRight_eq_div_pow]

theorem hi16_toNat (x : F32) : (hi16 x).toNat = x.toNat / 65536 := by
  have := x.isLt
  rw [hi16, extractLsb'_toNat_div_mod]
  omega

theorem lo16_toNat (x : F32) : (lo16 x).toNat = x.toNat % 65536 := by
  rw [lo16, extractLsb'_toNat_div_mod]
  omega

theorem sticky_toNat (x : F32) : (sticky x).toNat = x.toNat % 32768 := by
  rw [sticky, extractLsb'_toNat_div_mod]
  omega

theorem roundBit_eq (x : F32) : roundBit x = decide (32768 ≤ x.toNat % 65536) := by
  rw [roundBit, getLsbD_eq_decide]
  rw [decide_eq_decide]
  omega

theorem lsb_eq (x : F32) : lsb x = decide (x.toNat / 65536 % 2 = 1) := by
  rw [lsb, getLsbD_eq_decide, decide_eq_decide]
  omega

theorem sign32_eq (x : F32) : sign32 x = decide (2147483648 ≤ x.toNat) := by
  have := x.isLt
  rw [sign32, getLsbD_eq_decide]
  rw [decide_eq_decide]
  omega

theorem exp32_toNat (x : F32) : (exp32 x).toNat = x.toNat / 8388608 % 256 := by
  rw [exp32, extractLsb'_toNat_div_mod]
  omega

theorem man32_toNat (x : F32) : (man32 x).toNat = x.toNat % 8388608 := by
  rw [man32, extractLsb'_toNat_div_mod]
  omega

theorem sign16_eq (p : BF16) : sign16 p = decide (32768 ≤ p.toNat) := by
  have := p.isLt
  rw [sign16, getLsbD_eq_decide]
  rw [decide_eq_decide]
  omega

theorem exp16_toNat (p : BF16) : (exp16 p).toNat = p.toNat / 128 % 256 := by
  rw [exp16, extractLsb'_toNat_div_mod]
  omega

theorem man16_toNat (p : BF16) : (man16 p).toNat = p.toNat % 128 := by
  rw [man16, extractLsb'_toNat_div_mod]
  omega

theorem widenOperand_toNat (a : F32) : (widenOperand a).toNat = a.toNat % 65536 := by
  rw [widenOperand, extractLsb'_toNat_div_mod]
  omega

theorem withSign_toNat (s : Bool) (p : BF16) : (withSign s p).toNat = s.toNat * 32768 + p.toNat % 32768 := by
  have h : (p.extractLsb' 0 15).toNat = p.toNat % 32768 := by
    rw [extractLsb'_toNat_div_mod]; omega
  have hl : (p.extractLsb' 0 15).toNat < 2 ^ 15 := (p.extractLsb' 0 15).isLt
  rw [withSign, BitVec.toNat_append, ← Nat.shiftLeft_add_eq_or_of_lt hl, Nat.shiftLeft_eq, h]
  cases s <;> simp

end Sys2Proof.Machine
end

