-- ==== Sys2Proof/Laws/Classes.lean ====
section
/-! SUPPORT. The classification predicates of 10_state.md rules R19 and R20 as comparisons of the pattern without its
sign bit. -/

namespace Sys2Proof.Machine

theorem exp32_eq_iff (x : F32) (e : BitVec 8) : (exp32 x == e) = decide (x.toNat / 8388608 % 256 = e.toNat) := by
  rw [beq_eq_decide, ← exp32_toNat, decide_eq_decide, BitVec.toNat_inj]

theorem man32_eq_zero_iff (x : F32) : (man32 x == 0#23) = decide (x.toNat % 8388608 = 0) := by
  rw [beq_eq_decide, ← man32_toNat]
  rw [decide_eq_decide, ← BitVec.toNat_inj]
  simp

theorem exp16_eq_iff (p : BF16) (e : BitVec 8) : (exp16 p == e) = decide (p.toNat / 128 % 256 = e.toNat) := by
  rw [beq_eq_decide, ← exp16_toNat, decide_eq_decide, BitVec.toNat_inj]

theorem man16_eq_zero_iff (p : BF16) : (man16 p == 0#7) = decide (p.toNat % 128 = 0) := by
  rw [beq_eq_decide, ← man16_toNat]
  rw [decide_eq_decide, ← BitVec.toNat_inj]
  simp

theorem isNaN32_iff (x : F32) : isNaN32 x = true ↔ 0x7F800000 < x.toNat % 0x80000000 := by
  simp only [isNaN32, bne, exp32_eq_iff, man32_eq_zero_iff, Bool.and_eq_true, Bool.not_eq_true', decide_eq_true_eq,
    decide_eq_false_iff_not, BitVec.toNat_ofNat]
  omega

theorem isInf32_iff (x : F32) : isInf32 x = true ↔ x.toNat % 0x80000000 = 0x7F800000 := by
  simp only [isInf32, exp32_eq_iff, man32_eq_zero_iff, Bool.and_eq_true, decide_eq_true_eq, BitVec.toNat_ofNat]
  omega

theorem isZero32_iff (x : F32) : isZero32 x = true ↔ x.toNat % 0x80000000 = 0 := by
  rw [isZero32, beq_iff_eq, ← BitVec.toNat_inj, extractLsb'_toNat_div_mod]
  simp

theorem isSub32_iff (x : F32) :
    isSub32 x = true ↔ 0 < x.toNat % 0x80000000 ∧ x.toNat % 0x80000000 < 0x800000 := by
  simp only [isSub32, bne, exp32_eq_iff, man32_eq_zero_iff, Bool.and_eq_true, Bool.not_eq_true', decide_eq_true_eq,
    decide_eq_false_iff_not, BitVec.toNat_ofNat]
  omega

theorem isNormal32_iff (x : F32) :
    isNormal32 x = true ↔ 0x800000 ≤ x.toNat % 0x80000000 ∧ x.toNat % 0x80000000 < 0x7F800000 := by
  simp only [isNormal32, bne, exp32_eq_iff, Bool.and_eq_true, Bool.not_eq_true', decide_eq_false_iff_not,
    BitVec.toNat_ofNat]
  omega

theorem isFinite32_iff (x : F32) : isFinite32 x = true ↔ x.toNat % 0x80000000 < 0x7F800000 := by
  simp only [isFinite32, bne, exp32_eq_iff, Bool.not_eq_true', decide_eq_false_iff_not, BitVec.toNat_ofNat]
  omega

theorem isQuiet32_iff (x : F32) : isQuiet32 x = true ↔ 0x7FC00000 ≤ x.toNat % 0x80000000 := by
  simp only [isQuiet32, Bool.and_eq_true, isNaN32_iff, getLsbD_eq_decide, decide_eq_true_eq]
  omega

theorem isSignaling32_iff (x : F32) :
    isSignaling32 x = true ↔ 0x7F800000 < x.toNat % 0x80000000 ∧ x.toNat % 0x80000000 < 0x7FC00000 := by
  simp only [isSignaling32, Bool.and_eq_true, isNaN32_iff, getLsbD_eq_decide, Bool.not_eq_true',
    decide_eq_false_iff_not]
  omega

theorem isNaN16_iff (p : BF16) : isNaN16 p = true ↔ 0x7F80 < p.toNat % 0x8000 := by
  simp only [isNaN16, bne, exp16_eq_iff, man16_eq_zero_iff, Bool.and_eq_true, Bool.not_eq_true', decide_eq_true_eq,
    decide_eq_false_iff_not, BitVec.toNat_ofNat]
  omega

theorem isInf16_iff (p : BF16) : isInf16 p = true ↔ p.toNat % 0x8000 = 0x7F80 := by
  simp only [isInf16, exp16_eq_iff, man16_eq_zero_iff, Bool.and_eq_true, decide_eq_true_eq, BitVec.toNat_ofNat]
  omega

theorem isZero16_iff (p : BF16) : isZero16 p = true ↔ p.toNat % 0x8000 = 0 := by
  rw [isZero16, beq_iff_eq, ← BitVec.toNat_inj, extractLsb'_toNat_div_mod]
  simp

theorem isSub16_iff (p : BF16) : isSub16 p = true ↔ 0 < p.toNat % 0x8000 ∧ p.toNat % 0x8000 < 0x80 := by
  simp only [isSub16, bne, exp16_eq_iff, man16_eq_zero_iff, Bool.and_eq_true, Bool.not_eq_true', decide_eq_true_eq,
    decide_eq_false_iff_not, BitVec.toNat_ofNat]
  omega

theorem isNormal16_iff (p : BF16) : isNormal16 p = true ↔ 0x80 ≤ p.toNat % 0x8000 ∧ p.toNat % 0x8000 < 0x7F80 := by
  simp only [isNormal16, bne, exp16_eq_iff, Bool.and_eq_true, Bool.not_eq_true', decide_eq_false_iff_not,
    BitVec.toNat_ofNat]
  omega

theorem isFinite16_iff (p : BF16) : isFinite16 p = true ↔ p.toNat % 0x8000 < 0x7F80 := by
  simp only [isFinite16, bne, exp16_eq_iff, Bool.not_eq_true', decide_eq_false_iff_not, BitVec.toNat_ofNat]
  omega

theorem isQuiet16_iff (p : BF16) : isQuiet16 p = true ↔ 0x7FC0 ≤ p.toNat % 0x8000 := by
  simp only [isQuiet16, Bool.and_eq_true, isNaN16_iff, getLsbD_eq_decide, decide_eq_true_eq]
  omega

theorem isSignaling16_iff (p : BF16) :
    isSignaling16 p = true ↔ 0x7F80 < p.toNat % 0x8000 ∧ p.toNat % 0x8000 < 0x7FC0 := by
  simp only [isSignaling16, Bool.and_eq_true, isNaN16_iff, getLsbD_eq_decide, Bool.not_eq_true',
    decide_eq_false_iff_not]
  omega

theorem quietPatternOk_iff (p : BF16) : quietPatternOk p = true ↔ isQuiet16 p = true := by
  have h : (p.extractLsb' 7 8 == 0xFF#8) = decide (p.toNat / 128 % 256 = 255) := exp16_eq_iff p 0xFF#8
  rw [isQuiet16_iff, quietPatternOk, h, getLsbD_eq_decide]
  simp only [Bool.and_eq_true, decide_eq_true_eq]
  omega

theorem signalingPatternOk_iff (p : BF16) : signalingPatternOk p = true ↔ isSignaling16 p = true := by
  have h : (p.extractLsb' 7 8 == 0xFF#8) = decide (p.toNat / 128 % 256 = 255) := exp16_eq_iff p 0xFF#8
  have h0 : (p.extractLsb' 0 6 != 0#6) = decide (p.toNat % 64 ≠ 0) := by
    rw [bne, beq_eq_decide, ← decide_not, decide_eq_decide, ← BitVec.toNat_inj, extractLsb'_toNat_div_mod]
    simp
  rw [isSignaling16_iff, signalingPatternOk, h, h0, getLsbD_eq_decide]
  simp only [Bool.and_eq_true, Bool.not_eq_true', decide_eq_true_eq, decide_eq_false_iff_not]
  omega

end Sys2Proof.Machine
end

