-- ==== Sys2Proof/Laws/Decode.lean ====
section
/-! SUPPORT. The request word and its fields as arithmetic (30_encoding.md rule R30). -/

namespace Sys2Proof

theorem requestWord_toNat (r : Request) : (requestWord r).toNat = r.op.toNat * 4294967296 + r.a.toNat := by
  have h : r.a.toNat < 2 ^ 32 := r.a.isLt
  rw [requestWord, BitVec.toNat_append, ← Nat.shiftLeft_add_eq_or_of_lt h, Nat.shiftLeft_eq]

theorem requestOfWord_op_toNat (w : ReqWord) : (requestOfWord w).op.toNat = w.toNat / 4294967296 := by
  have := w.isLt
  rw [requestOfWord, Machine.extractLsb'_toNat_div_mod]
  omega

theorem requestOfWord_a_toNat (w : ReqWord) : (requestOfWord w).a.toNat = w.toNat % 4294967296 := by
  rw [requestOfWord, Machine.extractLsb'_toNat_div_mod]
  omega

theorem fieldA_toNat (w : ReqWord) : (fieldA w).toNat = w.toNat % 4294967296 := by
  rw [fieldA, Machine.extractLsb'_toNat_div_mod]
  omega

theorem fieldCls_toNat (w : ReqWord) : (fieldCls w).toNat = w.toNat / 17179869184 := by
  have := w.isLt
  rw [fieldCls, Machine.extractLsb'_toNat_div_mod]
  omega

theorem fieldSub_toNat (w : ReqWord) : (fieldSub w).toNat = w.toNat / 4294967296 % 4 := by
  rw [fieldSub, Machine.extractLsb'_toNat_div_mod]
  omega

theorem fieldNan_toNat (w : ReqWord) : (fieldNan w).toNat = w.toNat / 8589934592 % 2 := by
  rw [fieldNan, Machine.extractLsb'_toNat_div_mod]
  omega

theorem fieldAlt_toNat (w : ReqWord) : (fieldAlt w).toNat = w.toNat / 4294967296 % 2 := by
  rw [fieldAlt, Machine.extractLsb'_toNat_div_mod]
  omega

theorem decodeNat_of_lt {w : Nat} (h : w < 2 ^ 35) : decodeNat w = .ok (decode (BitVec.ofNat 35 w)) := by
  rw [decodeNat, isRequestWord, decide_eq_true h, if_pos rfl]

theorem decodeNat_of_ge {w : Nat} (h : 2 ^ 35 ≤ w) : decodeNat w = .error .notARequestWord := by
  rw [decodeNat, isRequestWord, decide_eq_false (Nat.not_lt.mpr h)]
  rfl

end Sys2Proof
end

