-- ==== Sys2Proof/Laws/State.lean ====
section
/-! SUPPORT. One lemma per field per update of the run, so that no later proof unfolds a record update. -/

namespace Sys2Proof.Machine

@[simp] theorem produce_pending (s : State) (y : F32) : (s.produce y).pending = s.pending := rfl

@[simp] theorem produce_results (s : State) (y : F32) : (s.produce y).results = s.results ++ [y] := rfl

@[simp] theorem present_pending (s : State) (r : Request) : (s.present r).pending = r :: s.pending := rfl

@[simp] theorem present_results (s : State) (r : Request) : (s.present r).results = s.results := rfl

@[simp] theorem load_pending (rs : List Request) : (State.load rs).pending = rs := rfl

@[simp] theorem load_results (rs : List Request) : (State.load rs).results = [] := rfl

@[simp] theorem idle_eq (s : State) : s.idle = s := rfl

@[simp] theorem reset_pending : State.reset.pending = [] := rfl

@[simp] theorem reset_results : State.reset.results = [] := rfl

theorem reset_eq_load : State.reset = State.load [] := rfl

/-- Two runs are the same when the host's list and the observation are. -/
theorem state_ext {s t : State} (hp : s.pending = t.pending) (hr : s.results = t.results) : s = t := by
  cases s; cases t; simp_all

end Sys2Proof.Machine
end

