-- ==== Sys2Proof/Laws/Ops.lean ====
section
/-! SUPPORT. What the shared operations can do, one lemma each. -/

namespace Sys2Proof.Machine

theorem takeRequest_nil {s : State} (h : s.pending = []) : s.takeRequest = none := by
  simp [State.takeRequest, h]

theorem takeRequest_cons {s : State} {r : Request} {rest : List Request} (h : s.pending = r :: rest) :
    s.takeRequest = some (r, { s with pending := rest }) := by
  simp [State.takeRequest, h]

theorem takeRequest_present (s : State) (r : Request) : (s.present r).takeRequest = some (r, s) := rfl

/-- All that taking a request can do: the head leaves the list and nothing else changes. -/
theorem takeRequest_eq_some {s t : State} {r : Request} (h : s.takeRequest = some (r, t)) :
    s.pending = r :: t.pending ∧ t.results = s.results := by
  unfold State.takeRequest at h
  split at h
  · cases h
  · next r' rest hp => cases h; exact ⟨hp, rfl⟩

theorem takeRequest_eq_none {s : State} (h : s.takeRequest = none) : s.pending = [] := by
  unfold State.takeRequest at h
  split at h
  · assumption
  · cases h

theorem presentWord_of_lt (s : State) {w : Nat} (h : w < 2 ^ 35) :
    s.presentWord w = s.present (requestOfWord (BitVec.ofNat 35 w)) := by
  rw [State.presentWord, isRequestWord, decide_eq_true h, if_pos rfl]

theorem presentWord_of_ge (s : State) {w : Nat} (h : 2 ^ 35 ≤ w) : s.presentWord w = s := by
  rw [State.presentWord, isRequestWord, decide_eq_false (Nat.not_lt.mpr h)]
  rfl

theorem packBF16_toNat (r : BF16) : (packBF16 r).toNat = r.toNat := by
  have := r.isLt
  simp only [packBF16, BitVec.toNat_setWidth]
  omega

end Sys2Proof.Machine
end

