-- ==== Sys2Proof/Laws/Rounder.lean ====
section
/-! SUPPORT. The rounder of 40_rounder.md as arithmetic: what the increment decision and the incrementer answer. -/

namespace Sys2Proof.Machine

@[simp] theorem inc_trunc (r : Bool) (st : BitVec 15) (l : Bool) : inc .trunc r st l = false := rfl

@[simp] theorem inc_rn (r : Bool) (st : BitVec 15) (l : Bool) : inc .rn r st l = r := rfl

theorem sum17_toNat (v : BF16) (i : Bool) : (sum17 v i).toNat = v.toNat + i.toNat := by
  have := v.isLt
  cases i <;> simp [sum17] <;> omega

/-- The incrementer's sum is the addition modulo 2^16 (rule R43). -/
theorem incr16_out_toNat (v : BF16) (i : Bool) : (incr16 v i).1.toNat = (v.toNat + i.toNat) % 65536 := by
  rw [incr16, extractLsb'_toNat_div_mod, sum17_toNat]
  simp

/-- Not incrementing leaves the pattern. -/
@[simp] theorem incr16_false (v : BF16) : (incr16 v false).1 = v := by
  have := v.isLt
  rw [← BitVec.toNat_inj, incr16_out_toNat, Bool.toNat_false]
  omega

/-- The carry out of bit 15 (rule R43). -/
theorem incr16_carry_eq (v : BF16) (i : Bool) : (incr16 v i).2 = decide (65536 ≤ v.toNat + i.toNat) := by
  have := v.isLt
  have hi : i.toNat ≤ 1 := Bool.toNat_le i
  show (sum17 v i).getLsbD 16 = _
  rw [getLsbD_eq_decide, sum17_toNat, decide_eq_decide]
  omega

/-- The RNE decision on an operand as a comparison of its low half (rule R42). -/
theorem inc_rne_eq (x : F32) :
    inc .rne (roundBit x) (sticky x) (lsb x) =
      decide (32768 < x.toNat % 65536 ∨ (x.toNat % 65536 = 32768 ∧ x.toNat / 65536 % 2 = 1)) := by
  have hs : (sticky x != 0#15) = decide (x.toNat % 32768 ≠ 0) := by
    rw [bne, beq_eq_decide, ← decide_not, decide_eq_decide, ← BitVec.toNat_inj, sticky_toNat]
    simp
  simp only [inc, hs, roundBit_eq, lsb_eq]
  rw [← Bool.decide_or, ← Bool.decide_and, decide_eq_decide]
  omega

/-- The decision on an operand, for the three policies, as a natural number 0 or 1. -/
theorem inc_operand_toNat (m : Mode) (x : F32) :
    (inc m (roundBit x) (sticky x) (lsb x)).toNat =
      match m with
      | .trunc => 0
      | .rn => if 32768 ≤ x.toNat % 65536 then 1 else 0
      | .rne => if 32768 < x.toNat % 65536 ∨ (x.toNat % 65536 = 32768 ∧ x.toNat / 65536 % 2 = 1) then 1 else 0 := by
  cases m with
  | trunc => rfl
  | rn => simp only [inc_rn, roundBit_eq]; split <;> simp_all
  | rne =>
    rw [inc_rne_eq]
    dsimp only
    split
    · next h => rw [decide_eq_true h]; rfl
    · next h => rw [decide_eq_false h]; rfl

end Sys2Proof.Machine
end

