-- ==== Sys2Proof/Laws/Narrowing.lean ====
section
/-! SUPPORT. The conversions of 41_narrowing.md and 42_widening.md as arithmetic on the patterns; proofs about results
cite these and never unfold the datapath. -/

namespace Sys2Proof.Machine

theorem rawNarrow_toNat (m : Mode) (x : F32) :
    (rawNarrow m x).toNat = (x.toNat / 65536 + (inc m (roundBit x) (sticky x) (lsb x)).toNat) % 65536 := by
  rw [rawNarrow, incr16_out_toNat, hi16_toNat]

theorem rawNarrow_trunc (x : F32) : rawNarrow .trunc x = hi16 x := by
  simp [rawNarrow]

/-- The guard acts on a NaN operand only. -/
theorem narrowWith_of_not_nan (P : NaNParams) (m : Mode) {x : F32} (h : isNaN32 x = false) :
    narrowWith P m x = rawNarrow m x := by
  simp [narrowWith, h]

/-- The guard leaves a literal result that is a NaN. -/
theorem narrowWith_of_raw_nan (P : NaNParams) {m : Mode} {x : F32} (h : isNaN16 (rawNarrow m x) = true) :
    narrowWith P m x = rawNarrow m x := by
  simp [narrowWith, h]

/-- What the guard answers where it acts. -/
theorem narrowWith_of_guard (P : NaNParams) {m : Mode} {x : F32} (hx : isNaN32 x = true)
    (hr : isNaN16 (rawNarrow m x) = false) : narrowWith P m x = withSign (sign32 x) P.qnan := by
  simp [narrowWith, hx, hr]

theorem widen_toNat (p : BF16) : (widen p).toNat = p.toNat * 65536 := by
  rw [widen, BitVec.toNat_append, Nat.shiftLeft_eq]
  simp

theorem packBF16_inj {p q : BF16} (h : packBF16 p = packBF16 q) : p = q := by
  rw [← BitVec.toNat_inj, ← packBF16_toNat, h, packBF16_toNat]

/-- A BF16 result fed back to WIDEN is read whole (rule R35). -/
theorem widenOperand_packBF16 (p : BF16) : widenOperand (packBF16 p) = p := by
  have := p.isLt
  rw [← BitVec.toNat_inj, widenOperand_toNat, packBF16_toNat]
  omega

end Sys2Proof.Machine
end

