-- ==== Sys2Proof/Laws/PerInstr.lean ====
section
/-! SUPPORT. Statements made per instruction. The family EncodeFields: the encoder puts the operation code in bits 34:32
and keeps all 32 operand bits (30_encoding.md rules R30, R31). -/

namespace Sys2Proof.Laws.EncodeFields

/-- The two fields of an instruction's request word. -/
def Statement (i : Instr) : Prop :=
  (encode i).toNat / 4294967296 = (opCode i.op).toNat ∧ (encode i).toNat % 4294967296 = i.operand.toNat

theorem of_encode (i : Instr) : Statement i := by
  have h : i.operand.toNat < 4294967296 := i.operand.isLt
  unfold Statement
  rw [encode, requestWord_toNat]
  simp only [instrRequest]
  omega

theorem trunc (a : F32) : Statement (.trunc a) := of_encode _

theorem rn (a : F32) : Statement (.rn a) := of_encode _

theorem rne (a : F32) : Statement (.rne a) := of_encode _

theorem widen (a : F32) : Statement (.widen a) := of_encode _

theorem pinf (a : F32) : Statement (.pinf a) := of_encode _

theorem ninf (a : F32) : Statement (.ninf a) := of_encode _

theorem qnan (a : F32) : Statement (.qnan a) := of_encode _

theorem snan (a : F32) : Statement (.snan a) := of_encode _

end Sys2Proof.Laws.EncodeFields
end

