-- ==== Sys2Proof/Laws/Step.lean ====
section
/-! SUPPORT. What exec and step can do, said once: an operation adds one observation, and a step also takes one request. -/

namespace Sys2Proof.Machine

/-- Every operation answers a next state that differs by one more observation. -/
theorem exec_produces (i : Instr) (s : State) : ∃ y : F32, exec i s = .next (s.produce y) := by
  cases i <;> exact ⟨_, rfl⟩

/-- What an operation observes does not depend on the run it is in. -/
theorem exec_same_result (i : Instr) (s t : State) {y : F32} (h : exec i s = .next (s.produce y)) :
    exec i t = .next (t.produce y) := by
  have last : ∀ {z : F32}, s.produce z = s.produce y → z = y := by
    intro z hz
    have := congrArg State.results hz
    simpa using this
  cases i <;>
    (refine congrArg (fun z => Host.Outcome.next (State.produce t z)) (last ?_)
     injection h)

theorem exec_next_inv {i : Instr} {s t : State} (h : exec i s = .next t) : ∃ y : F32, t = s.produce y := by
  obtain ⟨y, hy⟩ := exec_produces i s
  rw [hy] at h
  exact ⟨y, by injection h with h; exact h.symm⟩

theorem step_of_nil {s : State} (h : s.pending = []) : step s = .next s := by
  simp [step, takeRequest_nil h]

theorem step_of_cons {s : State} {r : Request} {rest : List Request} (h : s.pending = r :: rest) :
    step s = exec (decode (requestWord r)) { s with pending := rest } := by
  simp [step, takeRequest_cons h]

/-- All that a step can do: nothing when the run has ended, else one request taken and one result observed. -/
theorem step_cases {s t : State} (h : step s = .next t) :
    (s.pending = [] ∧ t = s) ∨
    (∃ (r : Request) (rest : List Request) (y : F32),
      s.pending = r :: rest ∧ t = { pending := rest, results := s.results ++ [y] }) := by
  cases hp : s.pending with
  | nil =>
    rw [step_of_nil hp] at h
    injection h with h
    exact .inl ⟨rfl, h.symm⟩
  | cons r rest =>
    rw [step_of_cons hp] at h
    obtain ⟨y, hy⟩ := exec_next_inv h
    exact .inr ⟨r, rest, y, rfl, hy⟩

end Sys2Proof.Machine
end

