-- ==== Sys2Proof/Tests/Slice0.lean ====
section
/-! SUPPORT. The model's own tests. Expected values come from spec/95_test_vectors.md or are written out by hand from the
encoding tables of 30_encoding.md. After them, one witness for every statement that has hypotheses. -/

namespace Sys2Proof.Tests

open Sys2Proof.Machine

/-! ### Well-formedness: each check refuses an ill-formed term -/

theorem test_word_of_36_bits_is_no_request : isRequestWord (2 ^ 35) = false := by decide
theorem test_quiet_pattern_needs_quiet_bit : quietPatternOk 0x7FA0#16 = false := by decide
theorem test_quiet_pattern_needs_exponent : quietPatternOk 0x7F40#16 = false := by decide
theorem test_signaling_pattern_needs_clear_quiet_bit : signalingPatternOk 0x7FC0#16 = false := by decide
theorem test_signaling_pattern_needs_payload : signalingPatternOk 0x7F80#16 = false := by decide
theorem test_signaling_pattern_needs_exponent : signalingPatternOk 0x3FA0#16 = false := by decide
theorem test_pair_of_two_quiets_is_ill_formed :
    NaNParams.wellFormed { qnan := 0x7FC0#16, snan := 0x7FC0#16 } = false := by decide
theorem test_every_operand_is_legal : (Instr.pinf 0xFFFFFFFF#32).wellFormed = true := by decide

/-! ### Decoding: one word per constructor, written out from rules R30 and R31 -/

theorem test_decode_trunc : decode 0b00000111111100001001000000000000000#35 = .trunc 0x3F848000#32 := by decide
theorem test_decode_rn : decode 0b00100111111100001001000000000000000#35 = .rn 0x3F848000#32 := by decide
theorem test_decode_rne : decode 0b01000111111100001001000000000000000#35 = .rne 0x3F848000#32 := by decide
theorem test_decode_widen : decode 0b01111011110101011010111111111000000#35 = .widen 0xDEAD7FC0#32 := by decide
theorem test_decode_pinf : decode 0b10011111111111111111111111111111111#35 = .pinf 0xFFFFFFFF#32 := by decide
theorem test_decode_ninf : decode 0b10100010010001101000101011001111000#35 = .ninf 0x12345678#32 := by decide
theorem test_decode_qnan : decode 0b11000000000000000000000000000000000#35 = .qnan 0#32 := by decide
theorem test_decode_snan : decode 0b11111111111111111111111111111111111#35 = .snan 0xFFFFFFFF#32 := by decide
theorem test_encode_widen : encode (.widen 0x00003F85#32) = 0x300003F85#35 := by decide
theorem test_table_word_rejected : decodeTableWord 40 0x800000000 = none := by decide

/-! ### One step each (95_test_vectors.md parts 2.3 to 2.6, 2.8) -/

/-- The observation of the one request that a word writes down, from reset. -/
def observed (w : Nat) : List F32 := observedResults (step (State.reset.withFetchWord 40 w))

theorem test_trunc_discards : observed 0x03F80FFFF = [0x00003F80#32] := by decide
theorem test_trunc_guard : observed 0x0FF800001 = [0x0000FFC0#32] := by decide
theorem test_rn_tie_rounds_up_negative : observed 0x1BF848000 = [0x0000BF85#32] := by decide
theorem test_rn_guard_all_ones : observed 0x17FFFFFFF = [0x00007FC0#32] := by decide
theorem test_rne_tie_to_even : observed 0x23F848000 = [0x00003F84#32] := by decide
theorem test_rne_largest_finite_to_infinity : observed 0x2FF7FFFFF = [0x0000FF80#32] := by decide
theorem test_widen_ignores_upper_half : observed 0x33F848000 = [0x80000000#32] := by decide
theorem test_widen_keeps_signaling : observed 0x300007FA0 = [0x7FA00000#32] := by decide
theorem test_pinf : observed 0x4FFFFFFFF = [0x00007F80#32] := by decide
theorem test_ninf : observed 0x512345678 = [0x0000FF80#32] := by decide
theorem test_qnan : observed 0x600000000 = [0x00007FC0#32] := by decide
theorem test_snan : observed 0x7FFFFFFFF = [0x00007FA0#32] := by decide
theorem test_result_is_appended :
    observedResults (step { pending := [⟨0b100#3, 0#32⟩], results := [5#32] }) = [5#32, 0x7F80#32] := by decide
theorem test_raw_narrow_loses_nan : rawNarrow .rn 0xFFFFFFFF#32 = 0x0000#16 := by decide
theorem test_rounder_worked_example : rounder .rn 0x3F84#16 true 0#15 = (0x3F85#16, false) := by decide
theorem test_incr_carry_out : incr16 0xFFFF#16 true = (0x0000#16, true) := by decide

/-! ### The layer outside the block -/

/-- An operation on bit patterns that is total, propagates NaNs, saturates and gives one chosen exact result: enough to
meet what rule R75 assumes, and no IEEE-754 unit. -/
def witnessOp (limit : Int) (exact : F32 → F32 → Int) (a b c : F32) (u v : F32) : F32 :=
  if isNaN32 u = true ∨ isNaN32 v = true then 0x7FC00000#32
  else if limit ≤ exact u v then inf32 false
  else if exact u v ≤ -limit then inf32 true
  else if u = a ∧ v = b then c
  else 0#32

/-- The same for a quotient. -/
def witnessDiv (a b c : F32) (u v : F32) : F32 :=
  if isNaN32 u = true ∨ isNaN32 v = true then 0x7FC00000#32
  else if mag32 v ≠ 0 ∧ mag32 v * 2 ^ 128 ≤ mag32 u then inf32 (sign32 u ^^ sign32 v)
  else if u = a ∧ v = b then c
  else 0#32

/-- A unit that meets the assumptions of rules R75 and R78. -/
def witnessUnit : F32Unit :=
  { add := witnessOp (2 ^ 128 * 2 ^ 149) (fun u v => units32 u + units32 v) 0x40000000#32 0x40600000#32 0x40B00000#32
    sub := witnessOp (2 ^ 128 * 2 ^ 149) (fun u v => units32 u - units32 v) 0x40B00000#32 0x40600000#32 0x40000000#32
    mul := witnessOp (2 ^ 128 * 2 ^ 149 * 2 ^ 149) (fun u v => units32 u * units32 v) 0x40000000#32 0x40600000#32 0x40E00000#32
    div := witnessDiv 0x40E00000#32 0x40600000#32 0x40000000#32
    eq := fun u v => !isNaN32 u && !isNaN32 v && u == v
    lt := fun _ _ => false
    le := fun _ _ => false
    gt := fun _ _ => false
    ge := fun _ _ => false }

/-- Program P2 of 95_test_vectors.md: 2.0 + 3.5 == 5.5. -/
def programP2 : List HostLine :=
  [ .request .rne (.literal 0x40000000#32), .request .rne (.literal 0x40600000#32),
    .request .rne (.literal 0x40B00000#32), .request .widen (.label 0), .request .widen (.label 1),
    .ext .add 3 4, .request .rne (.label 5), .request .widen (.label 6), .request .widen (.label 2),
    .extCompare .eq 7 8 ]

theorem test_program_p2_observation :
    (runProgram witnessUnit programP2).map (fun r => blockResults r.1) =
      some [0x00004000#32, 0x00004060#32, 0x000040B0#32, 0x40000000#32, 0x40600000#32, 0x000040B0#32,
        0x40B00000#32, 0x40B00000#32] := by decide
theorem test_program_p2_verdict :
    (runProgram witnessUnit programP2).map (fun r => r.1.getLast?) = some (some (.verdict true)) := by decide
theorem test_label_of_a_later_line_is_refused :
    runProgram witnessUnit [.request .widen (.label 0)] = none := by decide
theorem test_narrowing_without_operand_is_refused :
    runProgram witnessUnit [.request .rn .absent] = none := by decide
theorem test_pseudo_narrow_is_rne :
    (runProgram witnessUnit [.pseudo .narrowDefault (.literal 0x3F848000#32)]).map (fun r => blockResults r.1) =
      some [0x3F84#32] := by decide
theorem test_pseudo_frombits_issues_no_request :
    (runProgram witnessUnit [.pseudo .fromBits (.literal 0x7F80#32)]).map (fun r => r.2) = some [] := by decide
theorem test_little_endian_store : storeBF16 .little 0x3F85#16 = [0x85#8, 0x3F#8] := by decide
theorem test_big_endian_store : storeF32 .big 0x3F848001#32 = [0x3F#8, 0x84#8, 0x80#8, 0x01#8] := by decide
theorem test_unit_exponent : unitExponent = -149 := by decide
theorem test_value_of_three_and_a_half : units32 0x40600000#32 * 2 = 7 * 2 ^ 149 := by decide
theorem test_nan_is_unequal_to_itself : valEq witnessUnit 0x7FC0#16 0x7FC0#16 = false := by decide

/-! ### Witnesses: what each statement with hypotheses assumes can be met -/

theorem witness_formats_split :
    (0x000000000#35).getLsbD 34 = false ∧ (0x000000000#35).extractLsb' 32 2 = 0#2 ∧
    (0x1FFFFFFFF#35).getLsbD 34 = false ∧ (0x1FFFFFFFF#35).extractLsb' 32 2 = 1#2 ∧
    (0x200000000#35).getLsbD 34 = false ∧ (0x200000000#35).extractLsb' 32 2 = 2#2 ∧
    (0x3FFFFFFFF#35).getLsbD 34 = false ∧ (0x3FFFFFFFF#35).extractLsb' 32 2 = 3#2 ∧
    (0x400000000#35).getLsbD 34 = true ∧ (0x400000000#35).getLsbD 33 = false ∧ (0x400000000#35).getLsbD 32 = false ∧
    (0x5FFFFFFFF#35).getLsbD 34 = true ∧ (0x5FFFFFFFF#35).getLsbD 33 = false ∧ (0x5FFFFFFFF#35).getLsbD 32 = true ∧
    (0x600000000#35).getLsbD 34 = true ∧ (0x600000000#35).getLsbD 33 = true ∧ (0x600000000#35).getLsbD 32 = false ∧
    (0x7FFFFFFFF#35).getLsbD 34 = true ∧ (0x7FFFFFFFF#35).getLsbD 33 = true ∧ (0x7FFFFFFFF#35).getLsbD 32 = true := by
  decide
theorem witness_decode_inverts_encode : (Instr.widen 0xDEAD7FC0#32).wellFormed = true := by decide
theorem witness_table_words : (2 ^ 35 - 1 < 2 ^ 40 ∧ 2 ^ 35 - 1 < 2 ^ 35) ∧ (2 ^ 35 < 2 ^ 40 ∧ 2 ^ 35 ≤ 2 ^ 35) := by decide

/-- A run with one request left and one observed. -/
def midRun : State := { pending := [⟨0b001#3, 0x3F848000#32⟩], results := [0x7F80#32] }

theorem witness_step_with_a_request : midRun.pending = ⟨0b001#3, 0x3F848000#32⟩ :: [] := by decide
theorem witness_step_after_the_run : State.reset.pending = [] := by decide
theorem witness_step_keeps_the_run :
    midRun.RunOf [⟨0b100#3, 0#32⟩, ⟨0b001#3, 0x3F848000#32⟩] ∧
    step midRun = .next { pending := [], results := [0x7F80#32, 0x3F85#32] } :=
  ⟨⟨[⟨0b100#3, 0#32⟩], by decide, by decide⟩, rfl⟩
theorem witness_no_request_faults :
    exec (decode 0x400000000#35) midRun = .next { pending := midRun.pending, results := midRun.results ++ [0x7F80#32] } :=
  rfl
theorem witness_operations_add_one_observation :
    exec (.widen 0x4000#32) midRun = .next (midRun.produce 0x40000000#32) := rfl
theorem witness_result_ignores_the_run :
    exec (.ninf 0#32) midRun = .next (midRun.produce 0xFF80#32) ∧
    exec (.ninf 0#32) State.reset = .next (State.reset.produce 0xFF80#32) := ⟨rfl, rfl⟩
theorem witness_results_follow_their_requests :
    [Request.mk 0#3 1#32, Request.mk 1#3 2#32].Perm [Request.mk 1#3 2#32, Request.mk 0#3 1#32] ∧
    [true, false].length = [Request.mk 0#3 1#32, Request.mk 1#3 2#32].length := by decide
theorem witness_ignored_bits : (0xDEAD4000#32).extractLsb' 0 16 = (0x00004000#32).extractLsb' 0 16 := by decide
theorem witness_feed_back : (Instr.rn 0x3FFF8000#32).op ≠ .widen ∧
    exec (.rn 0x3FFF8000#32) midRun = .next (midRun.produce 0x4000#32) := ⟨by decide, rfl⟩
theorem witness_units_formula :
    isFinite32 0x7F7FFFFF#32 = true ∧ isFinite32 0x80000001#32 = true ∧
    isFinite16 0xFF7F#16 = true ∧ isFinite16 0x0001#16 = true := by decide
theorem witness_increment_decision : (0x7FFF#15 ≠ 0#15) ∧ (0#15 = 0#15) ∧ (true = true) ∧ (false = false) := by decide
theorem witness_decision_over_half :
    (0x3F807FFF#32).extractLsb' 0 16 < 0x8000#16 ∧ 0x8000#16 ≤ (0x3F808000#32).extractLsb' 0 16 ∧
    0x8000#16 < (0x3F808001#32).extractLsb' 0 16 ∧ (0x3F818000#32).extractLsb' 0 16 = 0x8000#16 := by decide
theorem witness_mantissa_carry :
    (0x007F#16).extractLsb' 0 7 = 0x7F#7 ∧ (0x007E#16).extractLsb' 0 7 ≠ 0x7F#7 ∧
    (0xFF7F#16).extractLsb' 0 15 = 0x7F7F#15 := by decide
theorem witness_carry_reaches_sign : isNaN32 0xFF800000#32 = false := by decide
theorem witness_rounding_is_to_nearest :
    isFinite32 0x7F7F7FFF#32 = true ∧ isFinite32 0x00008000#32 = true ∧ isFinite16 (narrow .rn 0x7F7F7FFF#32) = true ∧
    isFinite16 0xFF7F#16 = true ∧ Mode.rn ≠ .trunc ∧ (0x00008000#32).extractLsb' 0 16 = 0x8000#16 ∧
    isFinite16 (narrow .rn 0x00008000#32) = true := by decide
theorem witness_narrowing_keeps :
    Config.decided.wellFormed = true ∧ isInf32 0xFF800000#32 = true ∧ isNaN32 0x7F800001#32 = true ∧
    isNaN16 (narrowWith Config.decided .trunc 0x7F800001#32) = true := by decide
theorem witness_nan_cases :
    Config.decided.wellFormed = true ∧
    (isNaN32 0x7F800001#32 = true ∧ inc .rn (roundBit 0x7F800001#32) (sticky 0x7F800001#32) (lsb 0x7F800001#32) = false ∧
      (0x7F800001#32).extractLsb' 16 7 = 0x00#7) ∧
    (isNaN32 0x7F808000#32 = true ∧ inc .rn (roundBit 0x7F808000#32) (sticky 0x7F808000#32) (lsb 0x7F808000#32) = true ∧
      (0x7F808000#32).extractLsb' 16 7 = 0x00#7) ∧
    (isNaN32 0x7F817FFF#32 = true ∧ inc .rn (roundBit 0x7F817FFF#32) (sticky 0x7F817FFF#32) (lsb 0x7F817FFF#32) = false ∧
      0x01#7 ≤ (0x7F817FFF#32).extractLsb' 16 7 ∧ (0x7F817FFF#32).extractLsb' 16 7 ≤ 0x7E#7) ∧
    (isNaN32 0x7FFE8000#32 = true ∧ inc .rn (roundBit 0x7FFE8000#32) (sticky 0x7FFE8000#32) (lsb 0x7FFE8000#32) = true ∧
      0x01#7 ≤ (0x7FFE8000#32).extractLsb' 16 7 ∧ (0x7FFE8000#32).extractLsb' 16 7 ≤ 0x7E#7) ∧
    (isNaN32 0x7FFF7FFF#32 = true ∧ inc .rn (roundBit 0x7FFF7FFF#32) (sticky 0x7FFF7FFF#32) (lsb 0x7FFF7FFF#32) = false ∧
      (0x7FFF7FFF#32).extractLsb' 16 7 = 0x7F#7) ∧
    (isNaN32 0xFFFF8000#32 = true ∧ inc .rn (roundBit 0xFFFF8000#32) (sticky 0xFFFF8000#32) (lsb 0xFFFF8000#32) = true ∧
      (0xFFFF8000#32).extractLsb' 16 7 = 0x7F#7) := by decide
theorem witness_subnormals :
    (0x007FFFFF#32).extractLsb' 23 8 ≠ 0xFF#8 ∧ (0x7F7FFFFF#32).extractLsb' 23 8 ≠ 0xFF#8 := by decide
theorem witness_large_finite :
    isFinite32 0x7F7F8000#32 = true ∧ Mode.rne ≠ .trunc ∧ 0x7F7F8000#31 ≤ (0x7F7F8000#32).extractLsb' 0 31 ∧
    isFinite32 0xFF7F7FFF#32 = true ∧ (0xFF7F7FFF#32).extractLsb' 0 31 < 0x7F7F8000#31 := by decide
theorem witness_guard_acts :
    narrow .trunc 0x7F80FFFF#32 ≠ rawNarrow .trunc 0x7F80FFFF#32 ∧
    narrow .rn 0xFFFF8000#32 ≠ rawNarrow .rn 0xFFFF8000#32 := by decide
theorem witness_round_trips : (0x7FA00000#32).extractLsb' 0 16 = 0#16 ∧ isNaN32 0x7F7FFFFF#32 = false := by decide
theorem witness_policies_ordered : isNaN32 0x3F808000#32 = false := by decide
theorem witness_monotone :
    isNaN32 0xFF7FFFFF#32 = false ∧ isNaN32 0xFF800000#32 = false ∧
    (0xFF7FFFFF#32).getLsbD 31 = (0xFF800000#32).getLsbD 31 ∧ (0xFF7FFFFF#32).toNat ≤ (0xFF800000#32).toNat := by decide
theorem witness_widening_exact : widen 0x7FA0#16 = widen 0x7FA0#16 := rfl
theorem witness_widening_corners :
    isSub16 0x807F#16 = true ∧ isNaN16 0xFFFF#16 = true ∧ isSignaling16 0x7F81#16 = true := by decide
theorem witness_generator_contract :
    NaNParams.wellFormed { qnan := 0xFFFF#16, snan := 0xFF81#16 } = true ∧ Mode.rn ≠ .trunc := by decide

/-! The value type's assumptions are met by `witnessUnit`. -/

theorem witness_eq_false_on_nan : EqFalseOnNaN witnessUnit := by
  rintro u v (h | h) <;> simp [witnessUnit, h]

theorem witness_eq_true_on_equal : EqTrueOnEqual witnessUnit := by
  intro u h
  simp [witnessUnit, h]

theorem quiet_nan_is_nan : isNaN32 0x7FC00000#32 = true := by decide

theorem witnessOp_propagates (limit : Int) (exact : F32 → F32 → Int) (a b c : F32) :
    PropagatesNaN (witnessOp limit exact a b c) := by
  intro u v h
  rw [witnessOp, if_pos h, quiet_nan_is_nan]

theorem witness_propagates_nan : ArithPropagatesNaN witnessUnit := by
  refine ⟨witnessOp_propagates _ _ _ _ _, witnessOp_propagates _ _ _ _ _, witnessOp_propagates _ _ _ _ _, ?_⟩
  intro u v h
  show isNaN32 (witnessDiv _ _ _ u v) = true
  rw [witnessDiv, if_pos h, quiet_nan_is_nan]

theorem finite_is_no_nan {x : F32} (h : isFinite32 x = true) : isNaN32 x = false := by
  rw [isFinite32_iff] at h
  rw [← Bool.not_eq_true, isNaN32_iff]
  omega

theorem finites_are_no_nans {u v : F32} (hu : isFinite32 u = true) (hv : isFinite32 v = true) :
    ¬(isNaN32 u = true ∨ isNaN32 v = true) := by
  simp [finite_is_no_nan hu, finite_is_no_nan hv]

theorem witnessOp_saturates {limit : Int} (exact : F32 → F32 → Int) (a b c : F32) (hl : 0 < limit) :
    SaturatesAt limit (witnessOp limit exact a b c) exact := by
  intro u v hu hv
  constructor <;> intro h
  · rw [witnessOp, if_neg (finites_are_no_nans hu hv), if_pos h]
  · rw [witnessOp, if_neg (finites_are_no_nans hu hv), if_neg (by omega), if_pos h]

theorem witness_saturates : ArithSaturates witnessUnit := by
  refine ⟨witnessOp_saturates _ _ _ _ (by norm_num), witnessOp_saturates _ _ _ _ (by norm_num),
    witnessOp_saturates _ _ _ _ (by norm_num), ?_⟩
  intro u v hu hv h0 h
  show witnessDiv _ _ _ u v = _
  rw [witnessDiv, if_neg (finites_are_no_nans hu hv), if_pos ⟨h0, h⟩]

theorem witness_exact_results : ArithExactResults witnessUnit := by
  unfold ArithExactResults
  decide

theorem witness_unit_conforms : F32UnitConforms witnessUnit :=
  ⟨witness_eq_false_on_nan, witness_propagates_nan, witness_saturates, witness_exact_results, witness_eq_true_on_equal⟩

theorem witness_comparison_promotes : EqFalseOnNaN witnessUnit ∧ isNaN16 0x7FC0#16 = true :=
  ⟨witness_eq_false_on_nan, by decide⟩

theorem witness_value_nan_propagates : ArithPropagatesNaN witnessUnit ∧ isNaN16 0xFF81#16 = true :=
  ⟨witness_propagates_nan, by decide⟩

theorem witness_overflow :
    ArithSaturates witnessUnit ∧ isFinite16 0x7F7F#16 = true ∧ isFinite16 0xFF7F#16 = true ∧
    2 ^ 128 * 2 ^ 149 ≤ units16 0x7F7F#16 + units16 0x7F7F#16 ∧ units16 0xFF7F#16 + units16 0xFF7F#16 ≤ -(2 ^ 128 * 2 ^ 149) ∧
    2 ^ 128 * 2 ^ 149 ≤ units16 0x7F7F#16 - units16 0xFF7F#16 ∧ units16 0xFF7F#16 - units16 0x7F7F#16 ≤ -(2 ^ 128 * 2 ^ 149) ∧
    2 ^ 128 * 2 ^ 149 * 2 ^ 149 ≤ units16 0x7F7F#16 * units16 0x7F7F#16 ∧ units16 0x7F7F#16 * units16 0xFF7F#16 ≤ -(2 ^ 128 * 2 ^ 149 * 2 ^ 149) ∧
    mag16 0x0001#16 ≠ 0 ∧ mag16 0x0001#16 * 2 ^ 128 ≤ mag16 0x7F7F#16 :=
  ⟨witness_saturates, by decide⟩

theorem witness_host_programs :
    runProgram witnessUnit [.request .rn (.literal 0x3FFF8000#32), .request .widen (.label 0)] =
      some ([.block 0x4000#32, .block 0x40000000#32], [⟨0b001#3, 0x3FFF8000#32⟩, ⟨0b011#3, 0x4000#32⟩]) := by decide

end Sys2Proof.Tests
end

section
/-! PROOF. The layout statement of 10_state.md rule R17. Dividing by 2^16 takes each field of
the pattern to the same field of `hi16`; a BF16 pattern put above any low half is read back by `hi16`. -/

namespace Sys2Proof.Machine

@[simp] theorem sign16_hi16 (x : F32) : sign16 (hi16 x) = sign32 x := by
  rw [sign16_eq, sign32_eq, hi16_toNat, decide_eq_decide]
  omega

@[simp] theorem exp16_hi16 (x : F32) : exp16 (hi16 x) = exp32 x := by
  apply BitVec.eq_of_toNat_eq
  rw [exp16_toNat, exp32_toNat, hi16_toNat]
  omega

theorem man16_hi16 (x : F32) : man16 (hi16 x) = (man32 x).extractLsb' 16 7 := by
  apply BitVec.eq_of_toNat_eq
  rw [man16_toNat, hi16_toNat, extractLsb'_toNat_div_mod, man32_toNat]
  omega

theorem lo16_eq_man32_slice (x : F32) : lo16 x = (man32 x).extractLsb' 0 16 := by
  rw [lo16, man32, BitVec.extractLsb'_extractLsb'_of_le (by decide)]

/-- The low half of a pattern lies inside its mantissa. -/
theorem man32_eq_append (x : F32) : man32 x = man16 (hi16 x) ++ lo16 x := by
  rw [man16_hi16, lo16_eq_man32_slice, BitVec.extractLsb'_append_extractLsb']

@[simp] theorem hi16_append (p : BF16) (l : BitVec 16) : hi16 (p ++ l) = p :=
  BitVec.extractLsb'_append_eq_left

@[simp] theorem lo16_append (p : BF16) (l : BitVec 16) : lo16 (p ++ l) = l :=
  BitVec.extractLsb'_append_eq_right

theorem sign32_append (p : BF16) (l : BitVec 16) : sign32 (p ++ l) = sign16 p := by
  rw [← sign16_hi16, hi16_append]

theorem exp32_append (p : BF16) (l : BitVec 16) : exp32 (p ++ l) = exp16 p := by
  rw [← exp16_hi16, hi16_append]

theorem man32_append (p : BF16) (l : BitVec 16) : man32 (p ++ l) = man16 p ++ l := by
  rw [man32_eq_append, hi16_append, lo16_append]

/-- Settles O21: down, by reading the fields of `hi16`; up, by reading back the pattern put in the upper half. -/
theorem bf16LayoutIsTheUpperHalf : Obligations.BF16LayoutIsTheUpperHalf := by
  unfold Obligations.BF16LayoutIsTheUpperHalf
  constructor
  · intro x
    exact ⟨sign16_hi16 x, exp16_hi16 x, man16_hi16 x⟩
  · intro p
    exact ⟨sign32_append p _, exp32_append p _, man32_append p _⟩

end Sys2Proof.Machine
end

section
/-! PROOF. Array conversion (20_memory.md rule R27). The fields of the word that a request writes down give back the
request's mnemonic, so a step observes `eval` of its request; over the whole list a run observes the map of `eval`, and
`eval` at the code of a narrowing policy or of WIDEN is the scalar conversion. -/

namespace Sys2Proof.Machine

@[simp] theorem fieldA_requestWord (r : Request) : fieldA (requestWord r) = r.a :=
  BitVec.extractLsb'_append_eq_right

@[simp] theorem fieldCls_requestWord (r : Request) : fieldCls (requestWord r) = r.op.extractLsb' 2 1 :=
  BitVec.extractLsb'_append_eq_of_le (by decide)

@[simp] theorem fieldSub_requestWord (r : Request) : fieldSub (requestWord r) = r.op.extractLsb' 0 2 :=
  BitVec.extractLsb'_append_eq_of_le (by decide)

@[simp] theorem fieldNan_requestWord (r : Request) : fieldNan (requestWord r) = r.op.extractLsb' 1 1 :=
  BitVec.extractLsb'_append_eq_of_le (by decide)

@[simp] theorem fieldAlt_requestWord (r : Request) : fieldAlt (requestWord r) = r.op.extractLsb' 0 1 :=
  BitVec.extractLsb'_append_eq_of_le (by decide)

/-- The request word of a mnemonic's code decodes to that mnemonic, its operand kept whole (rules R30, R31). -/
theorem decode_requestWord_opCode (o : Op) (a : F32) : decode (requestWord ⟨opCode o, a⟩) = o.instr a := by
  simp only [decode, fieldCls_requestWord, fieldSub_requestWord, fieldNan_requestWord, fieldAlt_requestWord,
    fieldA_requestWord]
  cases o <;> rfl

/-- Rule R31 leaves no operation code without a mnemonic. -/
theorem exists_opCode_eq : ∀ c : OpCode, ∃ o : Op, opCode o = c
  | 0b000#3 => ⟨.trunc, rfl⟩
  | 0b001#3 => ⟨.rn, rfl⟩
  | 0b010#3 => ⟨.rne, rfl⟩
  | 0b011#3 => ⟨.widen, rfl⟩
  | 0b100#3 => ⟨.pinf, rfl⟩
  | 0b101#3 => ⟨.ninf, rfl⟩
  | 0b110#3 => ⟨.qnan, rfl⟩
  | 0b111#3 => ⟨.snan, rfl⟩

/-- The meaning of each operation observes the dispatch of rule R32 at the operation's code. -/
theorem exec_instr (o : Op) (a : F32) (s : State) :
    exec (o.instr a) s = .next (s.produce (eval (opCode o) a)) := by
  cases o <;> rfl

/-- Decoding a request's word and running what it decodes to observes `eval` of the request. -/
theorem exec_decode_requestWord (r : Request) (s : State) :
    exec (decode (requestWord r)) s = .next (s.produce (evalRequest r)) := by
  obtain ⟨c, a⟩ := r
  obtain ⟨o, rfl⟩ := exists_opCode_eq c
  rw [decode_requestWord_opCode, exec_instr]
  rfl

theorem step_of_cons_eval {s : State} {r : Request} {rest : List Request} (h : s.pending = r :: rest) :
    step s = .next { pending := rest, results := s.results ++ [evalRequest r] } := by
  rw [step_of_cons h, exec_decode_requestWord]
  rfl

/-- A run of as many steps as there are requests presents them all and observes `eval` of each, in order. -/
theorem run_pending (rs : List Request) (ys : List F32) :
    Host.Core.run core rs.length ({ pending := rs, results := ys } : State) =
      .next ({ pending := [], results := ys ++ rs.map evalRequest } : State) := by
  induction rs generalizing ys with
  | nil => simp [run_zero]
  | cons r rest ih => rw [List.length_cons, run_succ_of_next _ (step_of_cons_eval rfl), ih]; simp

theorem observation_eq_map (rs : List Request) : observation rs = rs.map evalRequest := by
  rw [observation, State.load, run_pending]
  rfl

/-- Rule R32 at the code of a rounding policy is the narrowing under that policy. -/
theorem eval_modeOp (m : Mode) (x : F32) : eval (opCode (modeOp m)) x = packBF16 (narrow m x) := by
  cases m <;> rfl

/-- Rule R32 at the code of WIDEN is the widening of the operand's low half. -/
theorem eval_widen (a : F32) : eval (opCode .widen) a = widen (widenOperand a) := rfl

/-- Settles O17: a run observes the map of `eval` over its requests, and `eval` of the request made for an element is
the scalar conversion of that element. -/
theorem arraysConvertElementwise : Obligations.ArraysConvertElementwise := by
  unfold Obligations.ArraysConvertElementwise
  constructor
  · intro m xs
    rw [observation_eq_map, narrowRequests, List.map_map]
    exact List.map_congr_left fun x _ => eval_modeOp m x
  · intro ps
    rw [observation_eq_map, widenRequests, List.map_map]
    refine List.map_congr_left fun p _ => ?_
    calc evalRequest ⟨opCode .widen, packBF16 p⟩
        = widen (widenOperand (packBF16 p)) := eval_widen _
      _ = p ++ 0x0000#16 := by rw [widenOperand_packBF16, widen]

end Sys2Proof.Machine
end

section
/-! PROOF. The narrowing operand of 30_encoding.md rule R33. The low half is the sum of `roundBit` with weight 0x8000
and of `sticky` below it; that the two lie next to each other and the three cases of the low half follow from this sum. -/

namespace Sys2Proof.Machine

theorem lsb_eq_hi16_bit (x : F32) : lsb x = (hi16 x).getLsbD 0 := by
  rw [hi16, BitVec.getLsbD_extractLsb']
  rfl

theorem sign32_eq_hi16_bit (x : F32) : sign32 x = (hi16 x).getLsbD 15 := by
  rw [← sign16_hi16, sign16]

theorem hi16_append_lo16 (x : F32) : hi16 x ++ lo16 x = x := by
  rw [hi16, lo16, BitVec.extractLsb'_append_extractLsb']

/-- `roundBit` has weight 0x8000 in the low half, `sticky` is what remains. -/
theorem lo16_toNat_weights (x : F32) : (lo16 x).toNat = (roundBit x).toNat * 32768 + (sticky x).toNat := by
  have hr : (roundBit x).toNat = x.toNat % 65536 / 32768 := by
    rw [roundBit_eq]
    by_cases h : 32768 ≤ x.toNat % 65536
    · rw [decide_eq_true h, Bool.toNat_true]; omega
    · rw [decide_eq_false h, Bool.toNat_false]; omega
  rw [lo16_toNat, sticky_toNat, hr]
  omega

theorem lo16_eq_append (x : F32) : lo16 x = BitVec.ofBool (roundBit x) ++ sticky x := by
  apply BitVec.eq_of_toNat_eq
  rw [BitVec.toNat_append, BitVec.toNat_ofBool, ← Nat.shiftLeft_add_eq_or_of_lt (sticky x).isLt, Nat.shiftLeft_eq,
    lo16_toNat_weights]

theorem lo16_lt_half_iff (x : F32) : lo16 x < 0x8000#16 ↔ roundBit x = false := by
  have hsum := lo16_toNat_weights x
  have hs := (sticky x).isLt
  change (lo16 x).toNat < 32768 ↔ _
  cases hr : roundBit x <;> simp only [hr, Bool.toNat_false, Bool.toNat_true] at hsum
  · exact iff_of_true (by omega) rfl
  · exact iff_of_false (by omega) Bool.noConfusion

theorem lo16_eq_half_iff (x : F32) : lo16 x = 0x8000#16 ↔ roundBit x = true ∧ sticky x = 0#15 := by
  have hsum := lo16_toNat_weights x
  have hs := (sticky x).isLt
  rw [← BitVec.toNat_inj, ← BitVec.toNat_inj]
  change (lo16 x).toNat = 32768 ↔ _ ∧ (sticky x).toNat = 0
  cases hr : roundBit x <;> simp only [hr, Bool.toNat_false, Bool.toNat_true] at hsum
  · exact iff_of_false (by omega) (Bool.noConfusion ·.1)
  · rw [eq_self, true_and]; omega

/-- Above the halfway pattern is what lies neither below it nor at it. -/
theorem half_lt_lo16_iff (x : F32) : 0x8000#16 < lo16 x ↔ roundBit x = true ∧ sticky x ≠ 0#15 := by
  calc 0x8000#16 < lo16 x
      ↔ ¬ lo16 x < 0x8000#16 ∧ ¬ lo16 x = 0x8000#16 := by bv_omega
    _ ↔ roundBit x = true ∧ sticky x ≠ 0#15 := by
      rw [lo16_lt_half_iff, lo16_eq_half_iff, Bool.not_eq_false, not_and]
      exact and_congr_right fun hr => ⟨fun h => h hr, fun h _ => h⟩

/-- Settles O18: the slices are the definitions, and the low half is read as `roundBit` above `sticky`. -/
theorem narrowingOperandFields : Obligations.NarrowingOperandFields := by
  unfold Obligations.NarrowingOperandFields
  intro x
  exact ⟨rfl, rfl, rfl, rfl, lsb_eq_hi16_bit x, sign32_eq_hi16_bit x, (hi16_append_lo16 x).symm, lo16_eq_append x,
    lo16_lt_half_iff x, lo16_eq_half_iff x, half_lt_lo16_iff x⟩

end Sys2Proof.Machine
end

section
/-! PROOF. The increment decision and the rounder (40_rounder.md rules R40, R41). RNE is described by its three cases: no
round bit, a round bit with something below it, and a tie. The narrowing reads `lsb` off the operand, the rounder off
`hi16`; the two are one bit. -/

namespace Sys2Proof.Machine

/-- Below the midpoint RNE does not increment. -/
@[simp] theorem inc_rne_of_round_clear (st : BitVec 15) (l : Bool) : inc .rne false st l = false := rfl

/-- Past the midpoint RNE increments. -/
theorem inc_rne_of_sticky {st : BitVec 15} (hst : st ≠ 0#15) (l : Bool) : inc .rne true st l = true := by
  have hne : (st != 0#15) = true := bne_iff_ne.mpr hst
  rw [inc, hne, Bool.true_or, Bool.and_true]

/-- On a tie RNE increments exactly when the retained lowest bit is 1. -/
@[simp] theorem inc_rne_of_tie (l : Bool) : inc .rne true 0#15 l = l := rfl

/-- The literal narrowing is the rounder's `out16` on the operand's fields (rules R40, R50). -/
theorem rawNarrow_eq_rounder (m : Mode) (x : F32) :
    rawNarrow m x = (rounder m (hi16 x) (roundBit x) (sticky x)).1 := by
  rw [rawNarrow, rounder, lsb_eq_hi16_bit]

/-- Settles O24, policy by policy; RNE by its three cases. -/
theorem incrementDecision : Obligations.IncrementDecision := by
  unfold Obligations.IncrementDecision
  intro rb l st
  refine ⟨inc_trunc rb st l, ?rnUp, ?rnDown, ?rneDown, ?rneUp, ?rneTie⟩
  case rnUp => rintro rfl; exact inc_rn true st l
  case rnDown => rintro rfl; exact inc_rn false st l
  case rneDown => rintro rfl; exact inc_rne_of_round_clear st l
  case rneUp => rintro rfl hst; exact inc_rne_of_sticky hst l
  case rneTie => rintro rfl rfl; exact inc_rne_of_tie l

/-- Settles O25: the composition is rule R40 as the model states it; the narrowing's fields are the rounder's inputs. -/
theorem rounderComposesDecisionAndIncrement : Obligations.RounderComposesDecisionAndIncrement := by
  unfold Obligations.RounderComposesDecisionAndIncrement
  constructor
  · intro m hi rb st
    rw [rounder]
  · exact rawNarrow_eq_rounder

end Sys2Proof.Machine
end

section
/-! PROOF. Infinite, zero, subnormal and large operands, and the sign (41_narrowing.md rules R56, R58, R59, R60). An
operand that is no NaN narrows to `hi16` plus the increment, and to `hi16` itself where its round bit is clear. Only a
carry out of bits 14:0 can change the sign. Such a carry needs a NaN operand and leaves those bits zero, which is no NaN,
so the guard then answers with the operand's sign. -/

namespace Sys2Proof.Machine

/-- The incrementer's sum is the addition of bit patterns (rule R43). -/
theorem incr16_out_eq_add (v : BF16) (i : Bool) : (incr16 v i).1 = v + (if i then 1#16 else 0#16) := by
  apply BitVec.eq_of_toNat_eq
  rw [incr16_out_toNat, BitVec.toNat_add]
  cases i <;> rfl

/-- No policy increments below the midpoint. -/
@[simp] theorem inc_of_round_clear (m : Mode) (st : BitVec 15) (l : Bool) : inc m false st l = false := by
  cases m <;> rfl

/-- Both rounding policies increment an odd pattern from the midpoint on. -/
theorem inc_of_round_of_lsb {m : Mode} (hm : m ≠ .trunc) (st : BitVec 15) : inc m true st true = true := by
  cases m with
  | trunc => exact absurd rfl hm
  | rn => rfl
  | rne => rw [inc, Bool.or_true, Bool.and_true]

/-- The operand without its sign bit, as arithmetic. -/
theorem magnitude32_toNat (x : F32) : (x.extractLsb' 0 31).toNat = x.toNat % 0x80000000 := by
  rw [extractLsb'_toNat_div_mod]
  omega

/-- The largest exponent is needed for a NaN. -/
theorem isNaN32_eq_false_of_finite {x : F32} (h : isFinite32 x = true) : isNaN32 x = false := by
  have hexp : exp32 x ≠ 0xFF#8 := bne_iff_ne.mp h
  rw [isNaN32, beq_eq_false_iff_ne.mpr hexp, Bool.false_and]

theorem narrow_eq_rawNarrow_of_not_nan {m : Mode} {x : F32} (h : isNaN32 x = false) : narrow m x = rawNarrow m x :=
  narrowWith_of_not_nan nanParams m h

/-- An operand that is no NaN is sliced and incremented. -/
theorem narrow_eq_add_of_not_nan {m : Mode} {x : F32} (h : isNaN32 x = false) :
    narrow m x = hi16 x + (if inc m (roundBit x) (sticky x) (lsb x) then 1#16 else 0#16) := by
  rw [narrow_eq_rawNarrow_of_not_nan h, rawNarrow, incr16_out_eq_add]

theorem narrow_of_round_clear {m : Mode} {x : F32} (h : isNaN32 x = false) (hr : roundBit x = false) :
    narrow m x = hi16 x := by
  rw [narrow_eq_rawNarrow_of_not_nan h, rawNarrow, hr, inc_of_round_clear, incr16_false]

theorem narrow_trunc_of_not_nan {x : F32} (h : isNaN32 x = false) : narrow .trunc x = hi16 x := by
  rw [narrow_eq_rawNarrow_of_not_nan h, rawNarrow_trunc]

/-- Settles O36: the round bit of an infinity is clear, so the result is `hi16`. -/
theorem infinitiesNarrowToInfinities : Obligations.InfinitiesNarrowToInfinities := by
  unfold Obligations.InfinitiesNarrowToInfinities
  exact fun _ => ⟨narrow_of_round_clear (by decide) (by decide), narrow_of_round_clear (by decide) (by decide)⟩

/-- Settles O38: both zeros and 0x00007FFF have a clear round bit; an exponent other than 0xFF is no NaN's. -/
theorem subnormalsAreNotFlushed : Obligations.SubnormalsAreNotFlushed := by
  unfold Obligations.SubnormalsAreNotFlushed
  refine ⟨fun m => ⟨?posZero, ?negZero, ?belowHalf⟩, ?sliced, by decide⟩
  case posZero => exact narrow_of_round_clear (by decide) (by decide)
  case negZero => exact narrow_of_round_clear (by decide) (by decide)
  case belowHalf => exact narrow_of_round_clear (by decide) (by decide)
  case sliced =>
    intro m x hexp
    exact narrow_eq_add_of_not_nan (isNaN32_eq_false_of_finite (bne_iff_ne.mpr hexp))

@[simp] theorem isFinite16_hi16 (x : F32) : isFinite16 (hi16 x) = isFinite32 x := by
  rw [isFinite16, exp16_hi16, isFinite32]

/-- From 0x7F7F8000 on the upper half of a finite operand is the largest finite pattern of the operand's sign. -/
theorem hi16_of_large {x : F32} (hfin : isFinite32 x = true) (hx : 0x7F7F8000 ≤ x.toNat % 0x80000000) :
    hi16 x = if sign32 x = true then 0xFF7F#16 else 0x7F7F#16 := by
  have := x.isLt
  rw [isFinite32_iff] at hfin
  apply BitVec.eq_of_toNat_eq
  rw [sign32_eq, hi16_toNat]
  by_cases hs : 2147483648 ≤ x.toNat
  · rw [if_pos (decide_eq_true hs), BitVec.toNat_ofNat]; omega
  · rw [if_neg (mt of_decide_eq_true hs), BitVec.toNat_ofNat]; omega

/-- From 0x7F7F8000 on the round bit and the lowest retained bit of a finite operand are set. -/
theorem round_and_lsb_of_large {x : F32} (hfin : isFinite32 x = true) (hx : 0x7F7F8000 ≤ x.toNat % 0x80000000) :
    roundBit x = true ∧ lsb x = true := by
  rw [isFinite32_iff] at hfin
  rw [roundBit_eq, lsb_eq, decide_eq_true_eq, decide_eq_true_eq]
  omega

/-- The rounding policies take the largest finite operands to the infinity of their sign. -/
theorem narrow_of_large {m : Mode} {x : F32} (hm : m ≠ .trunc) (hfin : isFinite32 x = true)
    (hx : 0x7F7F8000 ≤ x.toNat % 0x80000000) : narrow m x = if sign32 x = true then 0xFF80#16 else 0x7F80#16 := by
  obtain ⟨hr, hl⟩ := round_and_lsb_of_large hfin hx
  rw [narrow_eq_add_of_not_nan (isNaN32_eq_false_of_finite hfin), hr, hl, inc_of_round_of_lsb hm, if_pos rfl,
    hi16_of_large hfin hx]
  cases sign32 x <;> rfl

/-- Below 0x7F7F8000 an increment starts at most at 0x7F7E, since at 0x7F7F the round bit is clear. -/
theorem isFinite16_narrow_of_not_large (m : Mode) {x : F32} (hx : x.toNat % 0x80000000 < 0x7F7F8000) :
    isFinite16 (narrow m x) = true := by
  have hfin : isFinite32 x = true := (isFinite32_iff x).mpr (by omega)
  have hnan := isNaN32_eq_false_of_finite hfin
  cases hr : roundBit x with
  | false => rw [narrow_of_round_clear hnan hr, isFinite16_hi16, hfin]
  | true =>
    have hi := Bool.toNat_le (inc m (roundBit x) (sticky x) (lsb x))
    rw [roundBit_eq, decide_eq_true_eq] at hr
    rw [narrow_eq_rawNarrow_of_not_nan hnan, isFinite16_iff, rawNarrow_toNat]
    omega

/-- Settles O39: the two ranges meet at 0x7F7F8000, and TRUNC keeps the exponent. -/
theorem largeFiniteOperands : Obligations.LargeFiniteOperands := by
  unfold Obligations.LargeFiniteOperands
  intro x hfin
  refine ⟨fun m hm hx => ?large, fun m hx => ?notLarge, ?trunc⟩
  case large =>
    rw [BitVec.le_def, magnitude32_toNat] at hx
    exact narrow_of_large hm hfin hx
  case notLarge =>
    rw [BitVec.lt_def, magnitude32_toNat] at hx
    exact isFinite16_narrow_of_not_large m hx
  case trunc => rw [narrow_trunc_of_not_nan (isNaN32_eq_false_of_finite hfin), isFinite16_hi16, hfin]

@[simp] theorem sign16_withSign (s : Bool) (p : BF16) : sign16 (withSign s p) = s := by
  rw [sign16_eq, withSign_toNat]
  cases s with
  | false => rw [Bool.toNat_false, decide_eq_false_iff_not]; omega
  | true => rw [Bool.toNat_true, decide_eq_true_eq]; omega

/-- Where the guard does not act the increment stays within bits 14:0: the upper half of an operand that is no NaN is
at most an infinity's, and a carry out of bits 14:0 would leave them zero. -/
theorem sign16_rawNarrow {m : Mode} {x : F32} (h : isNaN32 x = false ∨ isNaN16 (rawNarrow m x) = true) :
    sign16 (rawNarrow m x) = sign32 x := by
  have hx := x.isLt
  have hi := Bool.toNat_le (inc m (roundBit x) (sticky x) (lsb x))
  have noCarry : x.toNat / 65536 % 32768 + (inc m (roundBit x) (sticky x) (lsb x)).toNat < 32768 := by
    obtain hnan | hraw := h
    · rw [← Bool.not_eq_true, isNaN32_iff] at hnan
      omega
    · rw [isNaN16_iff, rawNarrow_toNat] at hraw
      omega
  rw [sign16_eq, sign32_eq, rawNarrow_toNat, decide_eq_decide]
  omega

/-- Narrowing keeps the sign, whatever the NaN constants. -/
theorem sign16_narrowWith (P : NaNParams) (m : Mode) (x : F32) : sign16 (narrowWith P m x) = sign32 x := by
  cases hx : isNaN32 x with
  | false => rw [narrowWith_of_not_nan P m hx, sign16_rawNarrow (.inl hx)]
  | true =>
    cases hr : isNaN16 (rawNarrow m x) with
    | false => rw [narrowWith_of_guard P hx hr, sign16_withSign]
    | true => rw [narrowWith_of_raw_nan P hr, sign16_rawNarrow (.inr hr)]

/-- Settles O40: the case of the decided pair of NaN constants. -/
theorem signIsNeverChanged : Obligations.SignIsNeverChanged := by
  unfold Obligations.SignIsNeverChanged
  exact sign16_narrowWith nanParams

end Sys2Proof.Machine
end

section
/-! PROOF. WIDEN (42_widening.md rule R65). One observation is added, the widening of the operand's low half; the widened
pattern is the operand above sixteen zeros, so its fields are those of a BF16 pattern put above a low half (rule R17). -/

namespace Sys2Proof.Machine

/-- WIDEN in any run observes the widening of the operand's low half (rule R65). -/
theorem exec_widen (a : F32) (s : State) : exec (.widen a) s = .next (s.produce (widen (widenOperand a))) := rfl

@[simp] theorem sign32_widen (p : BF16) : sign32 (widen p) = sign16 p := sign32_append p _

@[simp] theorem exp32_widen (p : BF16) : exp32 (widen p) = exp16 p := exp32_append p _

theorem man32_widen (p : BF16) : man32 (widen p) = man16 p ++ 0x0000#16 := man32_append p _

/-- Settles O45: WIDEN by its one observation; the fields as those of a pattern put above zeros. -/
theorem widenRunsToThePaddedPattern : Obligations.WidenRunsToThePaddedPattern := by
  unfold Obligations.WidenRunsToThePaddedPattern
  constructor
  · intro a s
    rw [exec_widen, State.produce, widen, widenOperand]
  · intro p
    exact ⟨rfl, sign32_widen p, exp32_widen p, man32_widen p⟩

end Sys2Proof.Machine
end

section
/-! PROOF. The value-type layer (43_value_type.md rules R71 to R79). Its two requests are the narrowing and the widening,
so an operator is the external operation between two widenings and one narrowing, and a comparison the external
comparator after two widenings. A NaN goes through all three: widening keeps it, the external function is assumed to, and
the guard of 41_narrowing.md rule R52 answers a NaN with a NaN. -/

namespace Sys2Proof.Machine

/-- A BF16 result is read whole off the low half of port `y`. -/
@[simp] theorem resultBF16_packBF16 (p : BF16) : resultBF16 (packBF16 p) = p := widenOperand_packBF16 p

/-- Rule R71: a construction is the narrowing under its policy. -/
@[simp] theorem fromFloat32_eq_narrow (x : F32) (m : Mode) : fromFloat32 x m = narrow m x := by
  rw [fromFloat32, eval_modeOp, resultBF16_packBF16]

/-- Rule R74: a promotion is the widening. -/
@[simp] theorem toFloat32_eq_widen (v : BF16) : toFloat32 v = widen v := by
  rw [toFloat32, eval_widen, widenOperand_packBF16]

/-- Rule R77: the external operation on the widened operands, narrowed by RNE. -/
theorem promoted_eq (f : F32 → F32 → F32) (u v : BF16) : promoted f u v = narrow .rne (f (widen u) (widen v)) := by
  rw [promoted, fromFloat32_eq_narrow, toFloat32_eq_widen, toFloat32_eq_widen, defaultPolicy]

/-- Rule R76: the external comparator on the widened operands. -/
theorem compared_eq (f : F32 → F32 → Bool) (u v : BF16) : compared f u v = f (widen u) (widen v) := by
  rw [compared, toFloat32_eq_widen, toFloat32_eq_widen]

/-- Settles O52: the requests are the ones the definitions issue, and they answer the narrowing and the widening. -/
theorem valueConstruction : Obligations.ValueConstruction := by
  unfold Obligations.ValueConstruction
  exact ⟨fun _ => ⟨rfl, rfl, rfl⟩, fromFloat32_eq_narrow, fun _ => rfl, fun v => ⟨rfl, toFloat32_eq_widen v⟩⟩

/-- Settles O54: each operator is `promoted` of its external operation. -/
theorem arithmeticPromotesAndNarrows : Obligations.ArithmeticPromotesAndNarrows := by
  unfold Obligations.ArithmeticPromotesAndNarrows
  intro U u v
  exact ⟨promoted_eq U.add u v, promoted_eq U.sub u v, promoted_eq U.mul u v, promoted_eq U.div u v⟩

@[simp] theorem isNaN32_widen (p : BF16) : isNaN32 (widen p) = isNaN16 p := by
  rw [Bool.eq_iff_iff, isNaN32_iff, isNaN16_iff, widen_toNat]
  omega

/-- Where the external equality is false on a NaN, so is the equality of values. -/
theorem valEq_eq_false_of_nan {U : F32Unit} (hU : EqFalseOnNaN U) {u v : BF16}
    (h : isNaN16 u = true ∨ isNaN16 v = true) : valEq U u v = false := by
  rw [← isNaN32_widen u, ← isNaN32_widen v] at h
  rw [valEq, compared_eq, hU _ _ h]

/-- Settles O55: each comparison is `compared` of its external comparator; a NaN is unequal on either side. -/
theorem comparisonPromotes : Obligations.ComparisonPromotes := by
  unfold Obligations.ComparisonPromotes
  constructor
  · intro U u v
    exact ⟨compared_eq U.eq u v, rfl, compared_eq U.lt u v, compared_eq U.le u v, compared_eq U.gt u v,
      compared_eq U.ge u v⟩
  · intro U u v hU hu
    exact ⟨valEq_eq_false_of_nan hU (.inl hu), valEq_eq_false_of_nan hU (.inr hu), valEq_eq_false_of_nan hU (.inl hu)⟩

/-- The class of a NaN does not depend on the sign bit. -/
@[simp] theorem isNaN16_withSign (s : Bool) (p : BF16) : isNaN16 (withSign s p) = isNaN16 p := by
  rw [Bool.eq_iff_iff, isNaN16_iff, isNaN16_iff, withSign_toNat]
  omega

/-- The guard of rule R52: a NaN narrows to a NaN, when the quiet constant is one. -/
theorem isNaN16_narrowWith_of_nan {P : NaNParams} (hP : isNaN16 P.qnan = true) (m : Mode) {x : F32}
    (hx : isNaN32 x = true) : isNaN16 (narrowWith P m x) = true := by
  cases hr : isNaN16 (rawNarrow m x) with
  | false => rw [narrowWith_of_guard P hx hr, isNaN16_withSign, hP]
  | true => rw [narrowWith_of_raw_nan P hr, hr]

theorem isNaN16_narrow_of_nan (m : Mode) {x : F32} (hx : isNaN32 x = true) : isNaN16 (narrow m x) = true :=
  isNaN16_narrowWith_of_nan (by decide) m hx

/-- An operator whose external operation propagates NaNs propagates them too. -/
theorem isNaN16_promoted {f : F32 → F32 → F32} (hf : PropagatesNaN f) {u v : BF16}
    (h : isNaN16 u = true ∨ isNaN16 v = true) : isNaN16 (promoted f u v) = true := by
  rw [← isNaN32_widen u, ← isNaN32_widen v] at h
  rw [promoted_eq, isNaN16_narrow_of_nan .rne (hf _ _ h)]

/-- Settles O56: the same argument for the four external operations. -/
theorem valueArithmeticPropagatesNaN : Obligations.ValueArithmeticPropagatesNaN := by
  unfold Obligations.ValueArithmeticPropagatesNaN
  rintro U u v ⟨hadd, hsub, hmul, hdiv⟩ h
  exact ⟨isNaN16_promoted hadd h, isNaN16_promoted hsub h, isNaN16_promoted hmul h, isNaN16_promoted hdiv h⟩

end Sys2Proof.Machine
end

section
/-! PROOF. The infinity constants (44_special_values.md rules R85, R86). The operation adds one observation, its constant
above a zero upper half, and reads neither the operand nor the run; what the two constants denote is a closed fact. -/

namespace Sys2Proof.Machine

/-- PINF in any run observes the generator's positive infinity (rule R85). -/
theorem exec_pinf (a : F32) (s : State) : exec (.pinf a) s = .next (s.produce (packBF16 pinfPattern)) := rfl

/-- NINF in any run observes the generator's negative infinity (rule R86). -/
theorem exec_ninf (a : F32) (s : State) : exec (.ninf a) s = .next (s.produce (packBF16 ninfPattern)) := rfl

/-- Settles O48: each operation by its one observation; the class, the sign and the widening of each constant by
evaluation. -/
theorem infinityConstantsRun : Obligations.InfinityConstantsRun := by
  unfold Obligations.InfinityConstantsRun
  refine ⟨fun a s => ⟨?pinf, ?ninf⟩, ?patterns⟩
  case pinf =>
    have hy : packBF16 pinfPattern = 0x00007F80#32 := by decide
    rw [exec_pinf, hy, State.produce]
  case ninf =>
    have hy : packBF16 ninfPattern = 0x0000FF80#32 := by decide
    rw [exec_ninf, hy, State.produce]
  case patterns => decide

end Sys2Proof.Machine
end

section
/-! PROOF. No fault, no refusal, no stuck outcome (60_exceptions.md rule R95). An operation answers one more observation,
and the observation is read back from the state it leaves; a step answers a next state whether or not a request is left,
so by induction on its length every run ends in a state. -/

namespace Sys2Proof.Machine

/-- The state an operation leaves tells which value it observed. -/
theorem produce_inj {s : State} {y z : F32} (h : s.produce y = s.produce z) : y = z := by
  simpa using congrArg State.results h

/-- An operation on a run observes at most one value. -/
theorem exec_result_unique {i : Instr} {s : State} {y z : F32} (hy : exec i s = .next (s.produce y))
    (hz : exec i s = .next (s.produce z)) : y = z :=
  produce_inj (Host.Outcome.next.inj (hy.symm.trans hz))

/-- A step answers a next state: the same one when no request is left, else what the operation of the next one leaves. -/
theorem step_total (s : State) : ∃ t : State, step s = .next t := by
  cases hp : s.pending with
  | nil => exact ⟨s, step_of_nil hp⟩
  | cons r rest =>
    obtain ⟨y, hy⟩ := exec_produces (decode (requestWord r)) { s with pending := rest }
    exact ⟨_, (step_of_cons hp).trans hy⟩

/-- No run of any length from any state stops with a fault or a refusal. -/
theorem safe (s : State) : Safe s := by
  intro n
  induction n generalizing s with
  | zero => exact ⟨s, run_zero s⟩
  | succ n ih =>
    obtain ⟨t, hst⟩ := step_total s
    obtain ⟨u, htu⟩ := ih t
    exact ⟨u, (run_succ_of_next n hst).trans htu⟩

/-- Settles O13: every operation observes a value and only one, and no run stops, by induction on its length. -/
theorem noRequestFaultsOrIsRefused : Obligations.NoRequestFaultsOrIsRefused := by
  unfold Obligations.NoRequestFaultsOrIsRefused
  refine ⟨fun w s => ⟨?existence, ?uniqueness⟩, safe⟩
  case existence => exact exec_produces (decode w) s
  case uniqueness => exact fun y z hy hz => exec_result_unique hy hz

end Sys2Proof.Machine
end

section
/-! PROOF. The request word, its decoder and its encoder (30_encoding.md rules R30, R31, R36). A request word and the
request it writes down determine each other, and every operation code has a mnemonic; so every word is the request word of
a mnemonic's code and an operand, and what holds of those words holds of all. -/

namespace Sys2Proof

/-- Rule R30: the two parts of a request word are `op` and `a`. -/
@[simp] theorem requestOfWord_requestWord (r : Request) : requestOfWord (requestWord r) = r := by
  rw [requestOfWord, requestWord, BitVec.extractLsb'_append_eq_left, BitVec.extractLsb'_append_eq_right]

@[simp] theorem requestWord_requestOfWord (w : ReqWord) : requestWord (requestOfWord w) = w := by
  rw [requestWord, requestOfWord, BitVec.extractLsb'_append_extractLsb']

theorem requestWord_inj {r r' : Request} : requestWord r = requestWord r' ↔ r = r' :=
  (Function.LeftInverse.injective requestOfWord_requestWord).eq_iff

theorem opCode_inj : ∀ {o o' : Op}, opCode o = opCode o' ↔ o = o' := by
  intro o o'
  cases o <;> cases o' <;> decide

@[simp] theorem instr_op_operand (i : Instr) : i.op.instr i.operand = i := by cases i <;> rfl

@[simp] theorem op_instr (o : Op) (a : F32) : (o.instr a).op = o := by cases o <;> rfl

@[simp] theorem operand_instr (o : Op) (a : F32) : (o.instr a).operand = a := by cases o <;> rfl

/-- Rule R36. -/
theorem wellFormed_eq_true (i : Instr) : i.wellFormed = true := by cases i <;> rfl

/-- Every word is the request word of some mnemonic's code and an operand. -/
theorem exists_requestWord_opCode_eq (w : ReqWord) : ∃ (o : Op) (a : F32), requestWord ⟨opCode o, a⟩ = w := by
  obtain ⟨o, ho⟩ := Machine.exists_opCode_eq (requestOfWord w).op
  exact ⟨o, (requestOfWord w).a, by rw [ho, requestWord_requestOfWord]⟩

theorem decode_encode (i : Instr) : decode (encode i) = i := by
  rw [encode, instrRequest, Machine.decode_requestWord_opCode, instr_op_operand]

theorem encode_instr (o : Op) (a : F32) : encode (o.instr a) = requestWord ⟨opCode o, a⟩ := by
  rw [encode, instrRequest, op_instr, operand_instr]

theorem encode_decode (w : ReqWord) : encode (decode w) = w := by
  obtain ⟨o, a, rfl⟩ := exists_requestWord_opCode_eq w
  rw [Machine.decode_requestWord_opCode, encode_instr]

/-- Settles O3: an instruction is its mnemonic at its operand, and the word of the two decodes to it. -/
theorem decodeInvertsEncode : Obligations.DecodeInvertsEncode := by
  unfold Obligations.DecodeInvertsEncode
  exact fun i _ => decode_encode i

/-- Settles O4: every word is the request word of a mnemonic's code and an operand, which is what is encoded again. -/
theorem encodeInvertsDecode : Obligations.EncodeInvertsDecode := by
  unfold Obligations.EncodeInvertsDecode
  exact fun w => ⟨wellFormed_eq_true _, encode_decode w⟩

/-! The decoder by the bits of the word. -/

/-- A slice of one bit is that bit. -/
theorem extractLsb'_one {n : Nat} (x : BitVec n) (i : Nat) : x.extractLsb' i 1 = BitVec.ofBool (x.getLsbD i) := by
  ext j hj
  obtain rfl : j = 0 := by omega
  simp

/-- Format C of rule R30: bit 34 is clear. -/
theorem decode_of_conversion {w : ReqWord} {sub : BitVec 2} (h34 : w.getLsbD 34 = false)
    (hsub : w.extractLsb' 32 2 = sub) : decode w = decodeConversion sub (w.extractLsb' 0 32) := by
  rw [decode, fieldCls, extractLsb'_one, h34, fieldSub, hsub, fieldA]
  rfl

/-- Format S of rule R30: bit 34 is set. -/
theorem decode_of_special {w : ReqWord} {nan alt : Bool} (h34 : w.getLsbD 34 = true) (h33 : w.getLsbD 33 = nan)
    (h32 : w.getLsbD 32 = alt) :
    decode w = decodeSpecial (BitVec.ofBool nan) (BitVec.ofBool alt) (w.extractLsb' 0 32) := by
  rw [decode, fieldCls, extractLsb'_one, h34, fieldNan, extractLsb'_one, h33, fieldAlt, extractLsb'_one, h32, fieldA]
  rfl

/-- Settles O1: the two parts are read back from the word; each format by its own field `sub`, or `nan` and `alt`. -/
theorem formatsSplitRequestWord : Obligations.FormatsSplitRequestWord := by
  unfold Obligations.FormatsSplitRequestWord
  refine ⟨fun r => Request.mk.inj (requestOfWord_requestWord r), fun w => ⟨fun h34 => ?formatC, fun h34 => ?formatS⟩⟩
  case formatC =>
    exact ⟨decode_of_conversion h34, decode_of_conversion h34, decode_of_conversion h34, decode_of_conversion h34⟩
  case formatS =>
    exact ⟨decode_of_special h34, decode_of_special h34, decode_of_special h34, decode_of_special h34⟩

/-! The opcode table. -/

/-- Under the mask of rule R31 a word is its operation code over a zero operand. -/
theorem requestWord_and_mask (c : OpCode) (a : F32) :
    requestWord ⟨c, a⟩ &&& 0x700000000#35 = requestWord ⟨c, 0#32⟩ := by
  have hmask : (0x700000000#35 : ReqWord) = 0b111#3 ++ 0#32 := by decide
  have hc : c &&& 0b111#3 = c := BitVec.and_allOnes
  rw [requestWord, hmask, BitVec.and_append, hc, BitVec.and_zero, requestWord]

/-- A word matches the row of a mnemonic exactly when it decodes to that mnemonic. -/
theorem and_mask_eq_iff_decode (w : ReqWord) (o : Op) :
    w &&& 0x700000000#35 = requestWord ⟨opCode o, 0#32⟩ ↔ decode w = o.instr (w.extractLsb' 0 32) := by
  obtain ⟨o', a, rfl⟩ := exists_requestWord_opCode_eq w
  have ha : (requestWord ⟨opCode o', a⟩).extractLsb' 0 32 = a := Machine.fieldA_requestWord _
  rw [requestWord_and_mask, requestWord_inj, Machine.decode_requestWord_opCode, ha, Request.mk.injEq, and_iff_left rfl,
    opCode_inj]
  refine ⟨fun h => by rw [h], fun h => ?_⟩
  rw [← op_instr o' a, h, op_instr]

/-- The row of a mnemonic in the table of rule R31. -/
def rowOf (o : Op) : OpcodeRow := ⟨o, requestWord ⟨opCode o, 0#32⟩, 0x700000000#35⟩

theorem opcodeTable_eq : opcodeTable = [Op.trunc, .rn, .rne, .widen, .pinf, .ninf, .qnan, .snan].map rowOf := by decide

theorem rowMatches_rowOf (o o' : Op) (a : F32) :
    rowMatches (rowOf o) (requestWord ⟨opCode o', a⟩) = decide (o' = o) := by
  rw [rowMatches, rowOf, requestWord_and_mask, beq_eq_decide, decide_eq_decide, requestWord_inj, Request.mk.injEq,
    and_iff_left rfl, opCode_inj]

/-- Settles O2: row by row the word under the mask; over the table, the one row that matches is that of the mnemonic. -/
theorem everyWordHasOneOpcodeRow : Obligations.EveryWordHasOneOpcodeRow := by
  unfold Obligations.EveryWordHasOneOpcodeRow
  intro w
  refine ⟨and_mask_eq_iff_decode w .trunc, and_mask_eq_iff_decode w .rn, and_mask_eq_iff_decode w .rne,
    and_mask_eq_iff_decode w .widen, and_mask_eq_iff_decode w .pinf, and_mask_eq_iff_decode w .ninf,
    and_mask_eq_iff_decode w .qnan, and_mask_eq_iff_decode w .snan, ?oneRow⟩
  obtain ⟨o, a, rfl⟩ := exists_requestWord_opCode_eq w
  have hmatch : (fun row => rowMatches row (requestWord ⟨opCode o, a⟩)) ∘ rowOf = fun o' => decide (o = o') :=
    funext fun o' => rowMatches_rowOf o' o a
  rw [opcodeTable_eq, List.filter_map, hmatch, Machine.decode_requestWord_opCode, op_instr]
  cases o <;> rfl

/-- Settles O5: the words are closed terms and decode by evaluation. -/
theorem wordsOfTheVectorsDecode : Obligations.WordsOfTheVectorsDecode := by
  unfold Obligations.WordsOfTheVectorsDecode
  decide

/-- Presenting a request word makes the next step run what the word decodes to. -/
theorem step_present_requestOfWord (s : Machine.State) (w : ReqWord) :
    Machine.step (s.present (requestOfWord w)) = Machine.exec (decode w) s := by
  rw [Machine.step_of_cons (Machine.present_pending s _), requestWord_requestOfWord]
  rfl

/-- Settles O6: below 2^40 a number is its own low 40 bits; the two ranges meet at 2^35. -/
theorem tableWordsDecodeAndRun : Obligations.TableWordsDecodeAndRun := by
  unfold Obligations.TableWordsDecodeAndRun
  intro w hw
  have hlow : w % 2 ^ 40 = w := Nat.mod_eq_of_lt hw
  refine ⟨fun hlt => ⟨?decodes, fun s => ?runs⟩, fun hge => ⟨?isRefused, fun s => ?presentsNothing⟩⟩
  case decodes => rw [decodeTableWord, hlow, decodeNat_of_lt hlt]
  case runs =>
    rw [Machine.State.withFetchWord, hlow, Machine.presentWord_of_lt s hlt, step_present_requestOfWord]
  case isRefused => rw [decodeTableWord, hlow, decodeNat_of_ge hge]
  case presentsNothing => rw [Machine.State.withFetchWord, hlow, Machine.presentWord_of_ge s hge]

end Sys2Proof
end

section
/-! PROOF. Steps and runs (70_reset_and_hazards.md rule R111, 20_memory.md rules R28 and R29). A step with a request
left observes `eval` of it, so what has been observed is always the map of `eval` over what has been presented; and the
map of a function over a list goes with the list through any reordering and any interleaving. -/

namespace Sys2Proof.Machine

/-- Settles O7: the request is taken off the run before its operation runs. -/
theorem stepRunsDecodedRequest : Obligations.StepRunsDecodedRequest := by
  unfold Obligations.StepRunsDecodedRequest
  exact fun _ _ _ h => step_of_cons h

/-- Settles O8: no request can be taken off an empty list. -/
theorem stepAfterTheRunChangesNothing : Obligations.StepAfterTheRunChangesNothing := by
  unfold Obligations.StepAfterTheRunChangesNothing
  exact fun _ h => step_of_nil h

/-- Rule R22: while the host presents a request, port `y` is `eval` of it. -/
theorem portY_of_cons {s : State} {r : Request} {rest : List Request} (h : s.pending = r :: rest) :
    s.portY = some (evalRequest r) := by
  rw [State.portY, takeRequest_cons h, Option.map_some]

/-- Settles O9: the port by the head of the run, the step by the operation at each code. -/
theorem stepRefinesTheDispatch : Obligations.StepRefinesTheDispatch := by
  unfold Obligations.StepRefinesTheDispatch
  exact fun _ _ _ h => ⟨portY_of_cons h, step_of_cons_eval h⟩

/-- Settles O10: the case of a run that has observed nothing yet. -/
theorem runObservesTheMapOfEval : Obligations.RunObservesTheMapOfEval := by
  unfold Obligations.RunObservesTheMapOfEval
  exact fun rs => ⟨run_pending rs [], observation_eq_map rs⟩

/-- A run that has come some way and presents one more request has come that much further. -/
theorem runOf_cons {rs : List Request} {s : State} {r : Request} {rest : List Request} (hs : s.RunOf rs)
    (hp : s.pending = r :: rest) :
    State.RunOf rs { pending := rest, results := s.results ++ [evalRequest r] } := by
  obtain ⟨done, hrs, hres⟩ := hs
  refine ⟨done ++ [r], ?_, ?_⟩
  · rw [hrs, hp, List.append_assoc, List.singleton_append]
  · rw [hres, List.map_append, List.map_singleton]

/-- Settles O11: a step changes nothing when no request is left, else it moves one request to those presented. -/
theorem stepKeepsTheRun : Obligations.StepKeepsTheRun := by
  unfold Obligations.StepKeepsTheRun
  intro rs s t hs hst
  cases hp : s.pending with
  | nil =>
    rw [step_of_nil hp] at hst
    exact Host.Outcome.next.inj hst ▸ hs
  | cons r rest =>
    rw [step_of_cons_eval hp] at hst
    exact Host.Outcome.next.inj hst ▸ runOf_cons hs hp

/-- At its start a run has presented nothing. -/
theorem runOf_load (rs : List Request) : (State.load rs).RunOf rs := ⟨[], rfl, rfl⟩

/-- Settles O12: the state after reset is the start of the empty run. -/
theorem runStartsAtReset : Obligations.RunStartsAtReset := by
  unfold Obligations.RunStartsAtReset
  exact ⟨runOf_load, rfl, runOf_load []⟩

/-- Settles O14: an operation leaves the run with one more observation at its end. -/
theorem operationsAddOneObservation : Obligations.OperationsAddOneObservation := by
  unfold Obligations.OperationsAddOneObservation
  intro i s t h
  obtain ⟨y, rfl⟩ := exec_next_inv h
  refine ⟨produce_pending s y, ?_, ?_⟩
  · rw [produce_results, List.length_append, List.length_singleton]
  · rw [produce_results, List.take_left]

/-- Settles O15: the observation an operation adds to one run it adds to any other. -/
theorem resultIgnoresTheRun : Obligations.ResultIgnoresTheRun := by
  unfold Obligations.ResultIgnoresTheRun
  intro i s t s' t' hs ht
  obtain ⟨y, rfl⟩ := exec_next_inv hs
  rw [exec_same_result i s t hs] at ht
  obtain rfl := Host.Outcome.next.inj ht
  exact ⟨y, produce_results s y, produce_results t y⟩

/-- The part of a stream is taken alike before and after a map. -/
theorem streamPart_map {α β : Type} (f : α → β) (k : Bool) (tags : List Bool) (xs : List α) :
    streamPart k tags (xs.map f) = (streamPart k tags xs).map f := by
  rw [streamPart, streamPart, List.zip_map_right, List.filter_map, List.map_map, List.map_map]
  rfl

/-- Settles O16: both hold of the map of any function over a list. -/
theorem resultsFollowTheirRequests : Obligations.ResultsFollowTheirRequests := by
  unfold Obligations.ResultsFollowTheirRequests
  refine ⟨fun rs rs' h => ?reordered, fun tags rs k _ => ?interleaved⟩
  case reordered =>
    rw [observation_eq_map, observation_eq_map]
    exact h.map evalRequest
  case interleaved => rw [observation_eq_map, observation_eq_map, streamPart_map]

end Sys2Proof.Machine
end

section
/-! PROOF. Ignored operand bits and result packing (30_encoding.md rules R34, R35), and the NaN constants
(44_special_values.md rules R87, R88). WIDEN reads the low half of its operand only, the four special values nothing of
it; every operation but WIDEN observes a packed BF16 pattern, which WIDEN reads whole. -/

namespace Sys2Proof.Machine

/-- Settles O19: an operation's one observation names the bits it reads. -/
theorem ignoredBitsHaveNoEffect : Obligations.IgnoredBitsHaveNoEffect := by
  unfold Obligations.IgnoredBitsHaveNoEffect
  constructor
  · intro a b s h
    have hab : widenOperand a = widenOperand b := h
    rw [exec_widen, exec_widen, hab]
  · exact fun _ _ _ => ⟨rfl, rfl, rfl, rfl⟩

/-- Rule R35: the result of an operation other than WIDEN is a BF16 pattern. -/
theorem exec_of_ne_widen {i : Instr} (h : i.op ≠ .widen) (s : State) :
    ∃ p : BF16, exec i s = .next (s.produce (packBF16 p)) := by
  cases i with
  | widen a => exact absurd rfl h
  | trunc a => exact ⟨_, rfl⟩
  | rn a => exact ⟨_, rfl⟩
  | rne a => exact ⟨_, rfl⟩
  | pinf a => exact ⟨_, rfl⟩
  | ninf a => exact ⟨_, rfl⟩
  | qnan a => exact ⟨_, rfl⟩
  | snan a => exact ⟨_, rfl⟩

/-- Rule R35: the upper half of a packed pattern is zero. -/
@[simp] theorem hi16_packBF16 (p : BF16) : hi16 (packBF16 p) = 0#16 := by
  apply BitVec.eq_of_toNat_eq
  rw [hi16_toNat, packBF16_toNat, Nat.div_eq_of_lt p.isLt, BitVec.toNat_zero]

/-- Settles O20: the observation is a packed pattern, which WIDEN reads back whole. -/
theorem bf16ResultsFeedBackIntoWiden : Obligations.BF16ResultsFeedBackIntoWiden := by
  unfold Obligations.BF16ResultsFeedBackIntoWiden
  intro i s t hop h
  obtain ⟨p, hp⟩ := exec_of_ne_widen hop s
  rw [hp] at h
  obtain rfl := Host.Outcome.next.inj h
  exact ⟨packBF16 p, produce_results s _, hi16_packBF16 p, exec_widen _ _⟩

/-- QNAN in any run observes the generator's quiet NaN (rule R87). -/
theorem exec_qnan (a : F32) (s : State) : exec (.qnan a) s = .next (s.produce (packBF16 qnanPattern)) := rfl

/-- SNAN in any run observes the generator's signaling NaN (rule R88). -/
theorem exec_snan (a : F32) (s : State) : exec (.snan a) s = .next (s.produce (packBF16 snanPattern)) := rfl

/-- Settles O49: each operation by its one observation; the class of each constant by evaluation. -/
theorem naNConstantsRun : Obligations.NaNConstantsRun := by
  unfold Obligations.NaNConstantsRun
  refine ⟨fun a s => ⟨?qnan, ?snan⟩, ?classes⟩
  case qnan =>
    have hy : packBF16 qnanPattern = 0x00007FC0#32 := by decide
    rw [exec_qnan, hy, State.produce]
  case snan =>
    have hy : packBF16 snanPattern = 0x00007FA0#32 := by decide
    rw [exec_snan, hy, State.produce]
  case classes => decide

end Sys2Proof.Machine
end

section
/-! PROOF. The classes of the patterns and their numbers (10_state.md rules R19, R20; 44_special_values.md rule R90). Each
class is a range of the pattern without its sign bit, the five ranges follow one another, and a set of such magnitudes
has two patterns for each of its members. -/

namespace Sys2Proof.Machine

/-- Of five classes that are the ranges of a magnitude above, at, below and between two bounds, one holds. -/
theorem count_classes_eq_one {nan inf zero sub normal : Bool} {m a b : Nat} (ha : 0 < a) (hab : a < b)
    (hnan : nan = true ↔ b < m) (hinf : inf = true ↔ m = b) (hzero : zero = true ↔ m = 0)
    (hsub : sub = true ↔ 0 < m ∧ m < a) (hnormal : normal = true ↔ a ≤ m ∧ m < b) :
    [nan, inf, zero, sub, normal].count true = 1 := by
  simp only [List.count_cons, List.count_nil, beq_true, hnan, hinf, hzero, hsub, hnormal]
  split_ifs <;> omega

theorem count_classes32 (x : F32) : [isNaN32 x, isInf32 x, isZero32 x, isSub32 x, isNormal32 x].count true = 1 :=
  count_classes_eq_one (by decide) (by decide) (isNaN32_iff x) (isInf32_iff x) (isZero32_iff x) (isSub32_iff x)
    (isNormal32_iff x)

theorem count_classes16 (p : BF16) : [isNaN16 p, isInf16 p, isZero16 p, isSub16 p, isNormal16 p].count true = 1 :=
  count_classes_eq_one (by decide) (by decide) (isNaN16_iff p) (isInf16_iff p) (isZero16_iff p) (isSub16_iff p)
    (isNormal16_iff p)

/-- A class and its complement within another split the other. -/
theorem eq_and_xor_and_not (c q : Bool) : c = ((c && q) ^^ (c && !q)) := by cases c <;> cases q <;> rfl

/-- A pattern is finite when its exponent is not the one that NaNs and infinities share. -/
theorem not_eq_not_or_and (e z : Bool) : (!e) = !((e && !z) || (e && z)) := by cases e <;> cases z <;> rfl

/-- The number of patterns whose value as an unsigned integer lies in a set. -/
theorem card_toNat_mem {w : Nat} {P : BitVec w → Prop} (S : Finset Nat) (hlt : ∀ n ∈ S, n < 2 ^ w)
    (hP : ∀ p, P p ↔ p.toNat ∈ S) : Nat.card { p : BitVec w // P p } = S.card := by
  have himage : BitVec.toNat '' {p | P p} = (S : Set Nat) := by
    ext n
    constructor
    · rintro ⟨p, hp, rfl⟩
      exact (hP p).mp hp
    · intro hn
      have htoNat : (BitVec.ofNat w n).toNat = n := by rw [BitVec.toNat_ofNat, Nat.mod_eq_of_lt (hlt n hn)]
      exact ⟨BitVec.ofNat w n, (hP _).mpr (by rwa [htoNat]), htoNat⟩
  calc Nat.card { p : BitVec w // P p }
      = Set.ncard {p | P p} := Nat.card_coe_set_eq _
    _ = Set.ncard (BitVec.toNat '' {p | P p}) := (Set.ncard_image_of_injective _ BitVec.toNat_injective).symm
    _ = S.card := by rw [himage, Set.ncard_coe_finset]

/-- The patterns of `n + 1` bits, as unsigned integers, whose magnitude lies in a set. -/
def bothSigns (n : Nat) (T : Finset Nat) : Finset Nat := T ∪ T.map (addLeftEmbedding (2 ^ n))

theorem mem_bothSigns_iff {n : Nat} {T : Finset Nat} (hlt : ∀ m ∈ T, m < 2 ^ n) (k : Nat) :
    k ∈ bothSigns n T ↔ k < 2 ^ (n + 1) ∧ k % 2 ^ n ∈ T := by
  have hpow : 2 ^ (n + 1) = 2 ^ n + 2 ^ n := by omega
  simp only [bothSigns, Finset.mem_union, Finset.mem_map, addLeftEmbedding_apply]
  constructor
  · rintro (hk | ⟨m, hm, rfl⟩)
    · have hsmall := hlt k hk
      exact ⟨by omega, by rwa [Nat.mod_eq_of_lt hsmall]⟩
    · have hsmall := hlt m hm
      exact ⟨by omega, by rwa [Nat.add_mod_left, Nat.mod_eq_of_lt hsmall]⟩
  · rintro ⟨hk, hmem⟩
    by_cases hs : k < 2 ^ n
    · exact .inl (by rwa [Nat.mod_eq_of_lt hs] at hmem)
    · have hmod : k % 2 ^ n = k - 2 ^ n := by rw [Nat.mod_eq_sub_mod (by omega), Nat.mod_eq_of_lt (by omega)]
      exact .inr ⟨k % 2 ^ n, hmem, by omega⟩

theorem card_bothSigns {n : Nat} {T : Finset Nat} (hlt : ∀ m ∈ T, m < 2 ^ n) : (bothSigns n T).card = 2 * T.card := by
  have hdisjoint : Disjoint T (T.map (addLeftEmbedding (2 ^ n))) := by
    rw [Finset.disjoint_left]
    intro m hm hm'
    obtain ⟨k, -, rfl⟩ := Finset.mem_map.mp hm'
    exact absurd (hlt _ hm) (Nat.not_lt.mpr (Nat.le_add_right _ _))
  rw [bothSigns, Finset.card_union_of_disjoint hdisjoint, Finset.card_map, Nat.two_mul]

/-- A set of magnitudes has two patterns, one of each sign, for each of its members. -/
theorem card_magnitude_mem {n : Nat} {P : BitVec (n + 1) → Prop} (T : Finset Nat) (hlt : ∀ m ∈ T, m < 2 ^ n)
    (hP : ∀ p, P p ↔ p.toNat % 2 ^ n ∈ T) : Nat.card { p : BitVec (n + 1) // P p } = 2 * T.card := by
  rw [← card_bothSigns hlt]
  refine card_toNat_mem (bothSigns n T) (fun m hm => ((mem_bothSigns_iff hlt m).mp hm).1) fun p => ?_
  rw [hP, mem_bothSigns_iff hlt, and_iff_right p.isLt]

/-- A range of magnitudes, of both signs. -/
theorem card_magnitude_range {P : BF16 → Prop} {lo hi : Nat} (hhi : hi ≤ 0x8000)
    (hP : ∀ p, P p ↔ lo ≤ p.toNat % 0x8000 ∧ p.toNat % 0x8000 < hi) : Nat.card { p : BF16 // P p } = 2 * (hi - lo) := by
  rw [← Nat.card_Ico]
  exact card_magnitude_mem (n := 15) (Finset.Ico lo hi) (fun m hm => (Finset.mem_Ico.mp hm).2.trans_le hhi)
    fun p => (hP p).trans Finset.mem_Ico.symm

/-- A range of magnitudes, of one sign. -/
theorem card_magnitude_range_of_sign {P : BF16 → Prop} {lo hi : Nat} (hhi : hi ≤ 0x8000) (s : Bool)
    (hP : ∀ p, P p ↔ lo ≤ p.toNat % 0x8000 ∧ p.toNat % 0x8000 < hi) :
    Nat.card { p : BF16 // P p ∧ sign16 p = s } = hi - lo := by
  have hs := Bool.toNat_le s
  rw [card_toNat_mem (Finset.Ico (s.toNat * 0x8000 + lo) (s.toNat * 0x8000 + hi)) ?inRange ?members, Nat.card_Ico,
    Nat.add_sub_add_left]
  case inRange =>
    intro n hn
    rw [Finset.mem_Ico] at hn
    omega
  case members =>
    intro p
    have := p.isLt
    rw [hP p, sign16_eq, Finset.mem_Ico]
    cases s with
    | false => rw [decide_eq_false_iff_not, Bool.toNat_false]; omega
    | true => rw [decide_eq_true_eq, Bool.toNat_true]; omega

theorem isQuiet16_iff_range (p : BF16) : isQuiet16 p = true ↔ 0x7FC0 ≤ p.toNat % 0x8000 ∧ p.toNat % 0x8000 < 0x8000 := by
  rw [isQuiet16_iff]
  omega

theorem isSignaling16_iff_range (p : BF16) :
    isSignaling16 p = true ↔ 0x7F81 ≤ p.toNat % 0x8000 ∧ p.toNat % 0x8000 < 0x7FC0 := isSignaling16_iff p

/-- Settles O22: the five classes are ranges that follow one another; each number is that of a range of magnitudes. -/
theorem patternClassesPartition : Obligations.PatternClassesPartition := by
  unfold Obligations.PatternClassesPartition
  refine ⟨fun x => ⟨count_classes32 x, eq_and_xor_and_not _ _, not_eq_not_or_and _ _⟩,
    fun p => ⟨count_classes16 p, eq_and_xor_and_not _ _, not_eq_not_or_and _ _⟩,
    fun s => ⟨?quiet, ?signaling⟩, ?infinities, ?zeros, ?subnormals, ?normals⟩
  case quiet => exact card_magnitude_range_of_sign (by decide) s isQuiet16_iff_range
  case signaling => exact card_magnitude_range_of_sign (by decide) s isSignaling16_iff_range
  case infinities =>
    exact card_magnitude_range (lo := 0x7F80) (hi := 0x7F81) (by decide) fun p => by rw [isInf16_iff]; omega
  case zeros => exact card_magnitude_range (lo := 0) (hi := 1) (by decide) fun p => by rw [isZero16_iff]; omega
  case subnormals => exact card_magnitude_range (lo := 1) (by decide) isSub16_iff
  case normals => exact card_magnitude_range (by decide) isNormal16_iff

/-- Rule R90 of the pair, condition by condition. -/
theorem naNParams_wellFormed_iff (P : NaNParams) :
    P.wellFormed = true ↔ isQuiet16 P.qnan = true ∧ isSignaling16 P.snan = true := by
  rw [NaNParams.wellFormed, Bool.and_eq_true, quietPatternOk_iff, signalingPatternOk_iff]

/-- Settles O50: the conditions are the definition's; a well-formed constant is a quiet or a signaling NaN, and these are
ranges of magnitudes. -/
theorem wellFormedNaNConstants : Obligations.WellFormedNaNConstants := by
  unfold Obligations.WellFormedNaNConstants
  refine ⟨fun P => ?conditions, ?quiet, ?signaling, by decide⟩
  case conditions =>
    simp only [NaNParams.wellFormed, quietPatternOk, signalingPatternOk, Bool.and_eq_true, beq_iff_eq, bne_iff_ne,
      Bool.not_eq_true', and_assoc]
  case quiet =>
    exact card_magnitude_range (by decide) fun p => (quietPatternOk_iff p).trans (isQuiet16_iff_range p)
  case signaling =>
    exact card_magnitude_range (by decide) fun p => (signalingPatternOk_iff p).trans (isSignaling16_iff_range p)

end Sys2Proof.Machine
end

section
/-! PROOF. The value formula (10_state.md rule R21). The count of units of 2^(-149) is the formula multiplied by 2^149,
for a mantissa field of any width up to 23 bits; the two formats are the widths 23 and 7. -/

namespace Sys2Proof.Machine

/-- The unit of the count, 2^(-149), and the weight of the lowest mantissa bit of a field of `width` bits. -/
theorem two_pow_sub_mul_unit {width : Nat} (h : width ≤ 23) :
    (2 : ℚ) ^ (23 - width) * (2 : ℚ) ^ (-149 : ℤ) = (2 : ℚ) ^ (-126 : ℤ) / 2 ^ width := by
  rw [eq_div_iff (by positivity), mul_right_comm, ← pow_add, Nat.sub_add_cancel h]
  norm_num

/-- Rule R21 multiplied by 2^149, read back. -/
theorem magnitudeUnits_mul_unit {width : Nat} (h : width ≤ 23) (e m : Nat) :
    (magnitudeUnits width e m : ℚ) * (2 : ℚ) ^ (-149 : ℤ) =
      if e = 0 then (2 : ℚ) ^ (-126 : ℤ) * ((m : ℚ) / 2 ^ width)
      else (2 : ℚ) ^ ((e : ℤ) - 127) * (1 + (m : ℚ) / 2 ^ width) := by
  have hunit := two_pow_sub_mul_unit h
  rw [magnitudeUnits, Config.f32MantissaBits]
  split
  · push_cast
    rw [mul_assoc, hunit]
    ring
  · next he =>
    have hexp : (2 : ℚ) ^ ((e : ℤ) - 127) = 2 ^ (e - 1) * (2 : ℚ) ^ (-126 : ℤ) := by
      rw [← zpow_natCast, ← zpow_add₀ two_ne_zero]
      congr 1
      omega
    push_cast
    rw [mul_assoc, hunit, hexp]
    field_simp

theorem signedUnits_cast (negative : Bool) (n : Nat) :
    (signedUnits negative n : ℚ) = (if negative then -1 else 1) * (n : ℚ) := by
  cases negative <;> simp [signedUnits]

theorem natAbs_signedUnits (negative : Bool) (n : Nat) : (signedUnits negative n).natAbs = n := by
  cases negative <;> simp [signedUnits]

/-- Settles O23: the formula over the fields of either format, the mantissa field having 23 or 7 bits. -/
theorem unitsFollowTheValueFormula : Obligations.UnitsFollowTheValueFormula := by
  unfold Obligations.UnitsFollowTheValueFormula
  constructor
  · intro x _
    have hexp : exp32 x = 0#8 ↔ (exp32 x).toNat = 0 := BitVec.toNat_inj.symm
    simp only [hexp]
    rw [units32, signedUnits_cast, mul_assoc, mag32, magnitudeUnits_mul_unit (by decide)]
    rfl
  · intro p _
    have hexp : exp16 p = 0#8 ↔ (exp16 p).toNat = 0 := BitVec.toNat_inj.symm
    simp only [hexp]
    rw [units16, signedUnits_cast, mul_assoc, mag16, magnitudeUnits_mul_unit (by decide)]
    rfl

end Sys2Proof.Machine
end

section
/-! PROOF. The rounder on an operand (40_rounder.md rules R42 to R46). The decision goes by the side of the midpoint on
which the discarded half lies; the increment is an addition on the pattern, so whether it leaves the mantissa, or the
fifteen bits below the sign, is a matter of these bits being all ones. -/

namespace Sys2Proof.Machine

theorem half_le_lo16_iff (x : F32) : 0x8000#16 ≤ lo16 x ↔ roundBit x = true := by
  rw [← BitVec.not_lt, lo16_lt_half_iff, Bool.not_eq_false]

/-- No policy increments below the midpoint (rule R42). -/
theorem inc_of_lo16_lt_half (m : Mode) {x : F32} (h : lo16 x < 0x8000#16) :
    inc m (roundBit x) (sticky x) (lsb x) = false := by
  rw [(lo16_lt_half_iff x).mp h, inc_of_round_clear]

/-- Past the midpoint RNE increments (rule R42). -/
theorem inc_rne_of_half_lt_lo16 {x : F32} (h : 0x8000#16 < lo16 x) :
    inc .rne (roundBit x) (sticky x) (lsb x) = true := by
  obtain ⟨hr, hs⟩ := (half_lt_lo16_iff x).mp h
  rw [hr, inc_rne_of_sticky hs]

/-- On a tie RNE increments an odd upper half (rule R42). -/
theorem inc_rne_of_lo16_eq_half {x : F32} (h : lo16 x = 0x8000#16) :
    inc .rne (roundBit x) (sticky x) (lsb x) = lsb x := by
  obtain ⟨hr, hs⟩ := (lo16_eq_half_iff x).mp h
  rw [hr, hs, inc_rne_of_tie]

/-- A tie leaves an even result: RNE adds the lowest bit to itself. -/
theorem rawNarrow_rne_even_of_tie {x : F32} (h : lo16 x = 0x8000#16) : (rawNarrow .rne x).getLsbD 0 = false := by
  have hinc : (lsb x).toNat = x.toNat / 65536 % 2 := by
    rw [lsb_eq]
    by_cases hl : x.toNat / 65536 % 2 = 1
    · rw [decide_eq_true hl, Bool.toNat_true, hl]
    · rw [decide_eq_false hl, Bool.toNat_false]; omega
  rw [getLsbD_eq_decide, rawNarrow_toNat, inc_rne_of_lo16_eq_half h, hinc, decide_eq_false_iff_not]
  omega

/-- The rounding policies decide differently on a tie with an even neighbour below only. -/
theorem inc_rn_ne_inc_rne_iff (x : F32) :
    inc .rn (roundBit x) (sticky x) (lsb x) ≠ inc .rne (roundBit x) (sticky x) (lsb x) ↔
      lo16 x = 0x8000#16 ∧ lsb x = false := by
  rw [lo16_eq_half_iff, inc_rn]
  cases roundBit x with
  | false => simp
  | true =>
    by_cases hs : sticky x = 0#15
    · rw [hs, inc_rne_of_tie]; simp
    · rw [inc_rne_of_sticky hs]; simp [hs]

/-- Settles O26: below, at and past the midpoint. -/
theorem decisionOverTheDiscardedHalf : Obligations.DecisionOverTheDiscardedHalf := by
  unfold Obligations.DecisionOverTheDiscardedHalf
  intro x
  exact ⟨fun m => inc_of_lo16_lt_half m, inc_trunc _ _ _, (half_le_lo16_iff x).mp, inc_rne_of_half_lt_lo16,
    fun h => ⟨inc_rne_of_lo16_eq_half h, rawNarrow_rne_even_of_tie h⟩, inc_rn_ne_inc_rne_iff x⟩

/-- Settles O27: the three readings of the 17-bit sum. -/
theorem incrementerWrapsAt16Bits : Obligations.IncrementerWrapsAt16Bits := by
  unfold Obligations.IncrementerWrapsAt16Bits
  intro v i
  have hv := v.isLt
  have hi := Bool.toNat_le i
  refine ⟨?out, ?carry, ?sum⟩
  case out => rw [incr16_out_eq_add]; cases i <;> rfl
  case carry =>
    rw [incr16_carry_eq, decide_eq_true_eq, ← BitVec.toNat_inj, BitVec.toNat_ofNat, ← Bool.toNat_eq_one]
    omega
  case sum =>
    rw [incr16_out_toNat, incr16_carry_eq]
    by_cases hc : 65536 ≤ v.toNat + i.toNat
    · rw [decide_eq_true hc, Bool.toNat_true]; omega
    · rw [decide_eq_false hc, Bool.toNat_false]; omega

/-- Settles O28: an addition of 1 to the pattern, read off its low seven and fifteen bits. -/
theorem mantissaCarryIncrementsExponent : Obligations.MantissaCarryIncrementsExponent := by
  unfold Obligations.MantissaCarryIncrementsExponent
  intro v
  have hv := v.isLt
  have hout : (incr16 v true).1.toNat = (v.toNat + 1) % 65536 := incr16_out_toNat v true
  simp only [ne_eq, getLsbD_eq_decide, decide_eq_decide, ← BitVec.toNat_inj, BitVec.toNat_add, extractLsb'_toNat_div_mod,
    hout, BitVec.toNat_ofNat]
  refine ⟨fun h => ?allOnes, fun h => ?notAllOnes, fun h => ?largestFinite⟩
  case allOnes => omega
  case notAllOnes => omega
  case largestFinite => omega

/-- The upper half of an operand that is no NaN is at most an infinity's, so an increment stays below the sign. -/
theorem inc_stays_below_sign {x : F32} (h : isNaN32 x = false) (m : Mode) :
    x.toNat / 65536 % 32768 + (inc m (roundBit x) (sticky x) (lsb x)).toNat < 32768 := by
  have hi := Bool.toNat_le (inc m (roundBit x) (sticky x) (lsb x))
  rw [← Bool.not_eq_true, isNaN32_iff] at h
  omega

/-- Settles O29: an operand that is no NaN keeps its sign and leaves no carry; else the sum's bits decide. -/
theorem carryReachesTheSignOnlyOfNaNs : Obligations.CarryReachesTheSignOnlyOfNaNs := by
  unfold Obligations.CarryReachesTheSignOnlyOfNaNs
  intro m x
  have hx := x.isLt
  refine ⟨fun h => ⟨sign16_rawNarrow (.inl h), ?noCarry⟩, ?changed⟩
  case noCarry =>
    have hbelow := inc_stays_below_sign h m
    rw [incr16_carry_eq, hi16_toNat, decide_eq_false_iff_not]
    omega
  case changed =>
    have hi := Bool.toNat_le (inc m (roundBit x) (sticky x) (lsb x))
    change sign16 (rawNarrow m x) ≠ sign32 x ↔ _
    rw [sign16_eq, sign32_eq, rawNarrow_toNat, ne_eq, decide_eq_decide, ← BitVec.toNat_inj, extractLsb'_toNat_div_mod,
      BitVec.toNat_ofNat, ← Bool.toNat_eq_one]
    omega

end Sys2Proof.Machine
end

section
/-! PROOF. What narrowing keeps, its order and its error (41_narrowing.md rules R50, R51, R61). An operand that is no NaN
narrows to its upper half plus the increment, with no wrap at 16 bits; the claims are then about the increment, which is 0
or 1 by the discarded half. -/

namespace Sys2Proof.Machine

/-- Adding a half-word carries into the upper half exactly where the discarded half and it reach 2^16. -/
theorem rawNarrow_eq_hi16_add {m : Mode} {x c : F32} (hc : c.toNat < 65536)
    (hinc : inc m (roundBit x) (sticky x) (lsb x) = decide (65536 ≤ x.toNat % 65536 + c.toNat)) :
    rawNarrow m x = hi16 (x + c) := by
  apply BitVec.eq_of_toNat_eq
  rw [rawNarrow_toNat, hinc, hi16_toNat, BitVec.toNat_add]
  by_cases hcarry : 65536 ≤ x.toNat % 65536 + c.toNat
  · rw [decide_eq_true hcarry, Bool.toNat_true]; omega
  · rw [decide_eq_false hcarry, Bool.toNat_false]; omega

/-- RNE's addend is 0x7FFF and the lowest retained bit. -/
theorem rne_addend_toNat (x : F32) :
    (0x00007FFF#32 + (x.extractLsb' 16 1).setWidth 32).toNat = 32767 + x.toNat / 65536 % 2 := by
  rw [BitVec.toNat_add, BitVec.toNat_setWidth, extractLsb'_toNat_div_mod, BitVec.toNat_ofNat]
  omega

/-- Settles O31: with 0x8000 the discarded half carries from the midpoint on, with 0x7FFF past it or, the lowest retained
bit being 1, on it. -/
theorem singleAdderForms : Obligations.SingleAdderForms := by
  unfold Obligations.SingleAdderForms
  intro x
  refine ⟨rawNarrow_trunc x, rawNarrow_eq_hi16_add (by decide) ?rn, ?rne⟩
  case rn =>
    rw [inc_rn, roundBit_eq, decide_eq_decide, BitVec.toNat_ofNat]
    omega
  case rne =>
    have hc := rne_addend_toNat x
    rw [BitVec.add_assoc]
    refine rawNarrow_eq_hi16_add (by omega) ?_
    rw [inc_rne_eq, decide_eq_decide, hc]
    omega

/-- A slice of the upper half is the slice sixteen bits higher. -/
theorem extractLsb'_hi16 (x : F32) {lo len : Nat} (h : lo + len ≤ 16) :
    (hi16 x).extractLsb' lo len = x.extractLsb' (16 + lo) len := by
  apply BitVec.eq_of_getLsbD_eq
  intro j hj
  have hin : decide (lo + j < 16) = true := decide_eq_true (by omega)
  rw [hi16, BitVec.getLsbD_extractLsb', BitVec.getLsbD_extractLsb', BitVec.getLsbD_extractLsb', hin, Bool.true_and,
    Nat.add_assoc]

/-- An operand with a zero discarded half is not incremented. -/
theorem inc_of_lo16_eq_zero (m : Mode) {x : F32} (h : lo16 x = 0#16) :
    inc m (roundBit x) (sticky x) (lsb x) = false :=
  inc_of_lo16_lt_half m (by rw [h]; decide)

theorem rawNarrow_of_lo16_eq_zero (m : Mode) {x : F32} (h : lo16 x = 0#16) : rawNarrow m x = hi16 x := by
  rw [rawNarrow, inc_of_lo16_eq_zero m h, incr16_false]

/-- The result of an operand that is no NaN is the sum of the upper half and the increment, with no wrap. -/
theorem narrowWith_toNat_of_not_nan (P : NaNParams) (m : Mode) {x : F32} (h : isNaN32 x = false) :
    (narrowWith P m x).toNat = x.toNat / 65536 + (inc m (roundBit x) (sticky x) (lsb x)).toNat := by
  have hx := x.isLt
  have hbelow := inc_stays_below_sign h m
  rw [narrowWith_of_not_nan P m h, rawNarrow_toNat]
  omega

theorem lo16_of_inf {x : F32} (h : isInf32 x = true) : lo16 x = 0#16 := by
  rw [isInf32_iff] at h
  rw [← BitVec.toNat_inj, lo16_toNat, BitVec.toNat_zero]
  omega

theorem isNaN32_eq_false_of_inf {x : F32} (h : isInf32 x = true) : isNaN32 x = false := by
  rw [isInf32_iff] at h
  rw [← Bool.not_eq_true, isNaN32_iff]
  omega

/-- An infinity narrows to the infinity that is its upper half (rule R51). -/
theorem isInf16_narrowWith (P : NaNParams) (m : Mode) {x : F32} (h : isInf32 x = true) :
    isInf16 (narrowWith P m x) = true := by
  rw [narrowWith_of_not_nan P m (isNaN32_eq_false_of_inf h), rawNarrow_of_lo16_eq_zero m (lo16_of_inf h), isInf16_iff,
    hi16_toNat]
  rw [isInf32_iff] at h
  omega

/-- An operand that is no NaN narrows to no NaN: only an infinity could be incremented to one, and it is not. -/
theorem isNaN16_narrowWith_of_not_nan (P : NaNParams) (m : Mode) {x : F32} (h : isNaN32 x = false) :
    isNaN16 (narrowWith P m x) = false := by
  have hi := Bool.toNat_le (inc m (roundBit x) (sticky x) (lsb x))
  have hinc : isInf32 x = true → (inc m (roundBit x) (sticky x) (lsb x)).toNat = 0 := fun hinf => by
    rw [inc_of_lo16_eq_zero m (lo16_of_inf hinf), Bool.toNat_false]
  rw [isInf32_iff] at hinc
  rw [← Bool.not_eq_true, isNaN16_iff, narrowWith_toNat_of_not_nan P m h]
  rw [← Bool.not_eq_true, isNaN32_iff] at h
  omega

/-- A NaN operand narrows to a NaN, and no other does (rule R51). -/
theorem isNaN16_narrowWith {P : NaNParams} (hP : isNaN16 P.qnan = true) (m : Mode) (x : F32) :
    isNaN16 (narrowWith P m x) = isNaN32 x := by
  cases h : isNaN32 x with
  | false => exact isNaN16_narrowWith_of_not_nan P m h
  | true => exact isNaN16_narrowWith_of_nan hP m h

/-- The quiet constant of a well-formed pair is a NaN. -/
theorem isNaN16_qnan_of_wellFormed {P : NaNParams} (hP : P.wellFormed = true) : isNaN16 P.qnan = true :=
  (Bool.and_eq_true_iff.mp ((naNParams_wellFormed_iff P).mp hP).1).1

/-- Settles O32: the sign, an infinity and the NaNs. -/
theorem narrowingKeepsSignInfinityAndNaN : Obligations.NarrowingKeepsSignInfinityAndNaN := by
  unfold Obligations.NarrowingKeepsSignInfinityAndNaN
  intro P hP m x
  have hnan := isNaN16_narrowWith (isNaN16_qnan_of_wellFormed hP) m x
  exact ⟨sign16_narrowWith P m x, isInf16_narrowWith P m, hnan.trans, hnan.symm.trans⟩

/-- The increment of a rounding policy is 1 from the midpoint on or 0 up to it. -/
theorem inc_side_of_midpoint {m : Mode} (hm : m ≠ .trunc) (x : F32) :
    (inc m (roundBit x) (sticky x) (lsb x)).toNat = 1 ∧ 32768 ≤ x.toNat % 65536 ∨
      (inc m (roundBit x) (sticky x) (lsb x)).toNat = 0 ∧ x.toNat % 65536 ≤ 32768 := by
  rw [inc_operand_toNat]
  cases m with
  | trunc => exact absurd rfl hm
  | rn => dsimp only; split_ifs <;> omega
  | rne => dsimp only; split_ifs <;> omega

/-- RN's increment is the round bit. -/
theorem inc_rn_side_of_midpoint (x : F32) :
    (inc .rn (roundBit x) (sticky x) (lsb x)).toNat = 1 ∧ 32768 ≤ x.toNat % 65536 ∨
      (inc .rn (roundBit x) (sticky x) (lsb x)).toNat = 0 ∧ x.toNat % 65536 < 32768 := by
  rw [inc_operand_toNat]
  dsimp only
  split_ifs <;> omega

/-- RNE increments nothing that RN does not. -/
theorem inc_rne_le_inc_rn (x : F32) :
    (inc .rne (roundBit x) (sticky x) (lsb x)).toNat ≤ (inc .rn (roundBit x) (sticky x) (lsb x)).toNat := by
  have hi := Bool.toNat_le (inc .rne (roundBit x) (sticky x) (lsb x))
  obtain ⟨hrn, -⟩ | ⟨hrn, hlo⟩ := inc_rn_side_of_midpoint x
  · rw [hrn]; exact hi
  · obtain ⟨-, hmid⟩ | ⟨hrne, -⟩ := inc_side_of_midpoint (m := .rne) (by decide) x
    · exact absurd hlo (Nat.not_lt.mpr hmid)
    · rw [hrne]; exact Nat.zero_le _

/-- The error of a round trip: what the increment adds, less the discarded half. -/
theorem widen_narrow_sub {x : F32} (h : isNaN32 x = false) (m : Mode) :
    ((widen (narrow m x)).toNat : Int) - x.toNat =
      65536 * (inc m (roundBit x) (sticky x) (lsb x)).toNat - (x.toNat % 65536 : Nat) := by
  rw [widen_toNat, narrow, narrowWith_toNat_of_not_nan _ m h]
  omega

/-- Settles O43: the order and the distance of the results are those of the increments, and so is the error. -/
theorem policiesAreOrderedWithBoundedError : Obligations.PoliciesAreOrderedWithBoundedError := by
  unfold Obligations.PoliciesAreOrderedWithBoundedError
  intro x h
  have hresult (m : Mode) : (narrow m x).toNat = x.toNat / 65536 + (inc m (roundBit x) (sticky x) (lsb x)).toNat :=
    narrowWith_toNat_of_not_nan nanParams m h
  have hrne := Bool.toNat_le (inc .rne (roundBit x) (sticky x) (lsb x))
  have hrn := Bool.toNat_le (inc .rn (roundBit x) (sticky x) (lsb x))
  have hle := inc_rne_le_inc_rn x
  have hsideRn := inc_rn_side_of_midpoint x
  have hsideRne := inc_side_of_midpoint (m := .rne) (by decide) x
  have htrunc : (inc .trunc (roundBit x) (sticky x) (lsb x)).toNat = 0 := rfl
  refine ⟨?truncLeRne, ?rneLeRn, ?oneApart, ?magnitude, ?truncError, ?rnError, ?rneError⟩
  case truncLeRne => rw [hresult, hresult]; omega
  case rneLeRn => rw [hresult, hresult]; omega
  case oneApart => rw [hresult, hresult]; omega
  case magnitude => rw [narrow_trunc_of_not_nan h, extractLsb'_hi16 x (by decide)]
  case truncError => rw [widen_narrow_sub h]; omega
  case rnError => rw [widen_narrow_sub h]; omega
  case rneError => rw [widen_narrow_sub h]; omega

/-- The increment under one policy grows with the operand on operands that share an upper half. -/
theorem inc_toNat_mono (m : Mode) {x z : F32} (hhi : x.toNat / 65536 = z.toNat / 65536) (hlo : x.toNat ≤ z.toNat) :
    (inc m (roundBit x) (sticky x) (lsb x)).toNat ≤ (inc m (roundBit z) (sticky z) (lsb z)).toNat := by
  rw [inc_operand_toNat, inc_operand_toNat]
  cases m with
  | trunc => exact le_refl 0
  | rn => dsimp only; split_ifs <;> omega
  | rne => dsimp only; split_ifs <;> omega

/-- Settles O44: with upper halves that differ the increment cannot overtake; with the same one it is monotone. -/
theorem narrowingIsMonotone : Obligations.NarrowingIsMonotone := by
  unfold Obligations.NarrowingIsMonotone
  intro m x z hx hz _ hle
  have hi := Bool.toNat_le (inc m (roundBit x) (sticky x) (lsb x))
  rw [narrow, narrow, narrowWith_toNat_of_not_nan _ m hx, narrowWith_toNat_of_not_nan _ m hz]
  obtain hlt | heq : x.toNat / 65536 < z.toNat / 65536 ∨ x.toNat / 65536 = z.toNat / 65536 := by omega
  · omega
  · have hinc := inc_toNat_mono m heq hle
    omega

/-! Round trips (rules R61, R68). -/

@[simp] theorem hi16_widen (p : BF16) : hi16 (widen p) = p := hi16_append p _

@[simp] theorem lo16_widen (p : BF16) : lo16 (widen p) = 0#16 := lo16_append p _

/-- A pattern with a zero low half is its upper half widened. -/
theorem widen_hi16_of_lo16_eq_zero {x : F32} (h : lo16 x = 0#16) : widen (hi16 x) = x := by
  calc widen (hi16 x) = hi16 x ++ lo16 x := by rw [h, widen]
    _ = x := hi16_append_lo16 x

/-- The guard has nothing to do on a widened pattern: a NaN comes back as the NaN it was. -/
@[simp] theorem narrowWith_widen (P : NaNParams) (m : Mode) (p : BF16) : narrowWith P m (widen p) = p := by
  have hraw : rawNarrow m (widen p) = p := by rw [rawNarrow_of_lo16_eq_zero m (lo16_widen p), hi16_widen]
  rw [narrowWith, hraw, isNaN32_widen, Bool.and_not_self, if_neg Bool.false_ne_true]

theorem narrow_widen (m : Mode) (p : BF16) : narrow m (widen p) = p := narrowWith_widen nanParams m p

theorem narrow_of_lo16_eq_zero (m : Mode) {x : F32} (h : lo16 x = 0#16) : narrow m x = hi16 x := by
  rw [← narrow_widen m (hi16 x), widen_hi16_of_lo16_eq_zero h]

/-- Settles O42: a pattern with a zero low half is a widened one, and every widened pattern has one. -/
theorem roundTrips : Obligations.RoundTrips := by
  unfold Obligations.RoundTrips
  refine ⟨narrow_widen, fun m x => ⟨fun h => ?hasZeroHalf, fun h => ?comesBack⟩,
    fun m x h => narrow_of_lo16_eq_zero m h, fun x h => ?truncated⟩
  case hasZeroHalf =>
    rw [← h]
    exact lo16_widen _
  case comesBack => rw [narrow_of_lo16_eq_zero m h, widen_hi16_of_lo16_eq_zero h]
  case truncated => rw [narrow_trunc_of_not_nan h, widen, hi16]

end Sys2Proof.Machine
end

section
/-! PROOF. NaN operands (41_narrowing.md rules R52, R57, R62). A NaN operand's upper half is its sign, an exponent of all
ones and the upper seven bits of its payload, so the increment alone tells what becomes of it: seven zeros that are not
incremented give an infinity, seven ones that are incremented a zero, and every other case stays a NaN. -/

namespace Sys2Proof.Machine

/-- The literal algorithm loses a NaN operand (rule R57): by slicing its whole payload off, or by a carry out of it. -/
def LosesNaN (m : Mode) (x : F32) : Prop :=
  x.extractLsb' 16 7 = 0x00#7 ∧ inc m (roundBit x) (sticky x) (lsb x) = false ∨
    x.extractLsb' 16 7 = 0x7F#7 ∧ inc m (roundBit x) (sticky x) (lsb x) = true

/-- Of two conditions, one for a sliced and one for an incremented upper half, the first where it is sliced. -/
theorem sliced_or_inc_of_false {i : Bool} (hi : i = false) (A B : Prop) : (A ∧ i = false ∨ B ∧ i = true) ↔ A := by
  simp [hi]

/-- Of the same two conditions the second where the upper half is incremented. -/
theorem sliced_or_inc_of_true {i : Bool} (hi : i = true) (A B : Prop) : (A ∧ i = false ∨ B ∧ i = true) ↔ B := by
  simp [hi]

/-- A sliced NaN is lost when no payload is left. -/
theorem losesNaN_iff_of_sliced {m : Mode} {x : F32} (hi : inc m (roundBit x) (sticky x) (lsb x) = false) :
    LosesNaN m x ↔ x.extractLsb' 16 7 = 0x00#7 := sliced_or_inc_of_false hi _ _

/-- An incremented NaN is lost when its payload overflows. -/
theorem losesNaN_iff_of_inc {m : Mode} {x : F32} (hi : inc m (roundBit x) (sticky x) (lsb x) = true) :
    LosesNaN m x ↔ x.extractLsb' 16 7 = 0x7F#7 := sliced_or_inc_of_true hi _ _

/-- The upper half of a NaN, field by field. -/
theorem hi16_of_nan {x : F32} (h : isNaN32 x = true) :
    hi16 x = BitVec.ofBool (x.getLsbD 31) ++ 0xFF#8 ++ x.extractLsb' 16 7 := by
  have hexp : x.extractLsb' 23 8 = 0xFF#8 := beq_iff_eq.mp (Bool.and_eq_true_iff.mp h).1
  rw [← extractLsb'_one, ← hexp, BitVec.extractLsb'_append_extractLsb'_eq_extractLsb' (by rfl),
    BitVec.extractLsb'_append_extractLsb'_eq_extractLsb' (by rfl), hi16]

theorem rawNarrow_eq_ite (m : Mode) (x : F32) :
    rawNarrow m x = if inc m (roundBit x) (sticky x) (lsb x) = true then hi16 x + 1#16 else hi16 x := by
  rw [rawNarrow, incr16_out_eq_add]
  split
  · rfl
  · exact BitVec.add_zero _

/-- The literal result of a NaN operand that is not incremented. -/
theorem rawNarrow_of_nan {m : Mode} {x : F32} (h : isNaN32 x = true)
    (hi : inc m (roundBit x) (sticky x) (lsb x) = false) :
    rawNarrow m x = BitVec.ofBool (x.getLsbD 31) ++ 0xFF#8 ++ x.extractLsb' 16 7 := by
  rw [rawNarrow_eq_ite, hi, if_neg Bool.false_ne_true, hi16_of_nan h]

/-- The literal result of a NaN operand that is incremented. -/
theorem rawNarrow_of_nan_inc {m : Mode} {x : F32} (h : isNaN32 x = true)
    (hi : inc m (roundBit x) (sticky x) (lsb x) = true) :
    rawNarrow m x = BitVec.ofBool (x.getLsbD 31) ++ 0xFF#8 ++ x.extractLsb' 16 7 + 1#16 := by
  rw [rawNarrow_eq_ite, hi, if_pos rfl, hi16_of_nan h]

/-- An increment of seven bits that are not all ones stays within them. -/
theorem append_add_one (hi : BitVec 9) {lo : BitVec 7} (h : lo ≠ 0x7F#7) :
    (hi ++ lo : BitVec 16) + 1#16 = hi ++ (lo + 1#7) := by
  have append_toNat : ∀ l : BitVec 7, (hi ++ l).toNat = hi.toNat * 128 + l.toNat := fun l => by
    rw [BitVec.toNat_append, ← Nat.shiftLeft_add_eq_or_of_lt l.isLt, Nat.shiftLeft_eq]
  have hhi := hi.isLt
  have hlo := lo.isLt
  rw [ne_eq, ← BitVec.toNat_inj, BitVec.toNat_ofNat] at h
  apply BitVec.eq_of_toNat_eq
  rw [append_toNat, BitVec.toNat_add, BitVec.toNat_add, append_toNat, BitVec.toNat_ofNat, BitVec.toNat_ofNat]
  omega

/-- The payload of a pattern, its upper seven bits, as arithmetic. -/
theorem payload_eq_iff (x : F32) (p : BitVec 7) : x.extractLsb' 16 7 = p ↔ x.toNat / 65536 % 128 = p.toNat := by
  rw [← BitVec.toNat_inj, extractLsb'_toNat_div_mod]
  rfl

/-- The literal result of a NaN is no NaN exactly where the NaN is lost. -/
theorem isNaN16_rawNarrow_of_nan {m : Mode} {x : F32} (h : isNaN32 x = true) :
    isNaN16 (rawNarrow m x) = false ↔ LosesNaN m x := by
  rw [isNaN32_iff] at h
  rw [← Bool.not_eq_true, isNaN16_iff, rawNarrow_toNat]
  cases hi : inc m (roundBit x) (sticky x) (lsb x) with
  | false => rw [losesNaN_iff_of_sliced hi, payload_eq_iff, BitVec.toNat_ofNat, Bool.toNat_false]; omega
  | true => rw [losesNaN_iff_of_inc hi, payload_eq_iff, BitVec.toNat_ofNat, Bool.toNat_true]; omega

/-- Where a NaN is lost the guard answers the quiet constant with the operand's sign. -/
theorem narrowWith_of_losesNaN (P : NaNParams) {m : Mode} {x : F32} (h : isNaN32 x = true) (hl : LosesNaN m x) :
    narrowWith P m x = BitVec.ofBool (x.getLsbD 31) ++ P.qnan.extractLsb' 0 15 :=
  narrowWith_of_guard P h ((isNaN16_rawNarrow_of_nan h).mpr hl)

/-- Where no NaN is lost the guard does nothing. -/
theorem narrowWith_of_not_losesNaN (P : NaNParams) {m : Mode} {x : F32} (hl : ¬ LosesNaN m x) :
    narrowWith P m x = rawNarrow m x := by
  cases h : isNaN32 x with
  | false => exact narrowWith_of_not_nan P m h
  | true => exact narrowWith_of_raw_nan P (Bool.of_not_eq_false (mt (isNaN16_rawNarrow_of_nan h).mp hl))

/-- Rule R52 case by case: a lost NaN, an increment, a slice; the first two by any conditions `lost` and `up` that say
the same. -/
theorem narrow_eq_ite {m : Mode} {x : F32} {lost up : Prop} [Decidable lost] [Decidable up]
    (hlost : LosesNaN m x ↔ lost) (hup : inc m (roundBit x) (sticky x) (lsb x) = true ↔ up) :
    narrow m x =
      if isNaN32 x = true ∧ lost then BitVec.ofBool (x.getLsbD 31) ++ 0x7FC0#15
      else if up then x.extractLsb' 16 16 + 1#16
      else x.extractLsb' 16 16 := by
  split
  · next h => exact narrowWith_of_losesNaN nanParams h.1 (hlost.mpr h.2)
  · next h =>
    have hraw : narrow m x = rawNarrow m x := by
      by_cases hx : isNaN32 x = true
      · exact narrowWith_of_not_losesNaN nanParams fun hl => h ⟨hx, hlost.mp hl⟩
      · exact narrowWith_of_not_nan nanParams m (Bool.of_not_eq_true hx)
    simp only [hraw, rawNarrow_eq_ite, hup, hi16]

theorem losesNaN_trunc_iff (x : F32) : LosesNaN .trunc x ↔ x.extractLsb' 16 7 = 0#7 :=
  losesNaN_iff_of_sliced (inc_trunc _ _ _)

theorem losesNaN_rn_iff (x : F32) :
    LosesNaN .rn x ↔
      x.extractLsb' 16 7 = 0#7 ∧ x.getLsbD 15 = false ∨ x.extractLsb' 16 7 = 0x7F#7 ∧ x.getLsbD 15 = true :=
  Iff.rfl

theorem inc_rne_iff (x : F32) :
    inc .rne (roundBit x) (sticky x) (lsb x) = true ↔
      x.getLsbD 15 = true ∧ (x.extractLsb' 0 15 ≠ 0#15 ∨ x.getLsbD 16 = true) := by
  rw [inc, Bool.and_eq_true, Bool.or_eq_true, bne_iff_ne, roundBit, sticky, lsb]

/-- Seven ones have a 1 for the lowest retained bit, so RNE increments them with the round bit. -/
theorem losesNaN_rne_iff (x : F32) :
    LosesNaN .rne x ↔
      x.extractLsb' 16 7 = 0#7 ∧ ¬(x.getLsbD 15 = true ∧ (x.extractLsb' 0 15 ≠ 0#15 ∨ x.getLsbD 16 = true)) ∨
        x.extractLsb' 16 7 = 0x7F#7 ∧ x.getLsbD 15 = true := by
  have hlsb : x.extractLsb' 16 7 = 0x7F#7 → x.getLsbD 16 = true := fun h => by
    rw [payload_eq_iff, BitVec.toNat_ofNat] at h
    rw [getLsbD_eq_decide, decide_eq_true_eq]
    omega
  rw [LosesNaN, ← Bool.not_eq_true, inc_rne_iff]
  refine or_congr Iff.rfl (and_congr_right fun hp => ?_)
  rw [and_iff_left (.inr (hlsb hp))]

/-- Settles O33: TRUNC never increments. -/
theorem truncRunsToTheUpperHalf : Obligations.TruncRunsToTheUpperHalf := by
  unfold Obligations.TruncRunsToTheUpperHalf
  intro a s
  have hup : inc .trunc (roundBit a) (sticky a) (lsb a) = true ↔ False := by rw [inc_trunc, Bool.false_eq_true]
  have hy := narrow_eq_ite (losesNaN_trunc_iff a) hup
  rw [if_false] at hy
  rw [← hy]
  rfl

/-- Settles O34: RN increments with the round bit. -/
theorem rnRunsToTheRoundedHalf : Obligations.RnRunsToTheRoundedHalf := by
  unfold Obligations.RnRunsToTheRoundedHalf
  intro a s
  have hup : inc .rn (roundBit a) (sticky a) (lsb a) = true ↔ a.getLsbD 15 = true := by rw [inc_rn, roundBit]
  rw [← narrow_eq_ite (losesNaN_rn_iff a) hup]
  rfl

/-- Settles O35: RNE increments past the midpoint, and on a tie with an odd upper half. -/
theorem rneRunsToTheNearestEvenHalf : Obligations.RneRunsToTheNearestEvenHalf := by
  unfold Obligations.RneRunsToTheNearestEvenHalf
  intro a s
  rw [← narrow_eq_ite (losesNaN_rne_iff a) (inc_rne_iff a)]
  rfl

/-! The rows of rule R57. -/

/-- A payload of zeros above, sliced: the literal result is an infinity, and the NaN is lost. -/
theorem rawNarrow_of_zeros {m : Mode} {x : F32} (h : isNaN32 x = true) (hp : x.extractLsb' 16 7 = 0x00#7)
    (hi : inc m (roundBit x) (sticky x) (lsb x) = false) :
    rawNarrow m x = BitVec.ofBool (x.getLsbD 31) ++ 0x7F80#15 := by
  rw [rawNarrow_of_nan h hi, hp]
  cases x.getLsbD 31 <;> rfl

/-- A payload of ones above, incremented: the literal result is a zero of the other sign, and the NaN is lost. -/
theorem rawNarrow_of_ones_inc {m : Mode} {x : F32} (h : isNaN32 x = true) (hp : x.extractLsb' 16 7 = 0x7F#7)
    (hi : inc m (roundBit x) (sticky x) (lsb x) = true) :
    rawNarrow m x = BitVec.ofBool (!x.getLsbD 31) ++ 0x0000#15 := by
  rw [rawNarrow_of_nan_inc h hi, hp]
  cases x.getLsbD 31 <;> rfl

/-- A payload that is not all ones above is incremented within its seven bits. -/
theorem rawNarrow_of_not_ones_inc {m : Mode} {x : F32} (h : isNaN32 x = true) (hp : x.extractLsb' 16 7 ≠ 0x7F#7)
    (hi : inc m (roundBit x) (sticky x) (lsb x) = true) :
    rawNarrow m x = BitVec.ofBool (x.getLsbD 31) ++ 0xFF#8 ++ (x.extractLsb' 16 7 + 1#7) := by
  rw [rawNarrow_of_nan_inc h hi, append_add_one _ hp]

/-- A NaN is quiet when the highest bit of its payload is set. -/
theorem isQuiet32_of_nan {x : F32} (h : isNaN32 x = true) : isQuiet32 x = true ↔ 64 ≤ x.toNat / 65536 % 128 := by
  rw [isNaN32_iff] at h
  rw [isQuiet32_iff]
  omega

/-- A lost NaN becomes the quiet constant, whichever it was. -/
theorem isQuiet16_narrow_of_losesNaN {m : Mode} {x : F32} (h : isNaN32 x = true) (hl : LosesNaN m x) :
    isQuiet16 (narrow m x) = true := by
  rw [narrow, narrowWith_of_losesNaN _ h hl]
  cases x.getLsbD 31 <;> rfl

/-- A NaN that is kept is quiet when its payload, after the increment, has its highest bit set. -/
theorem isQuiet16_narrow_of_not_losesNaN {m : Mode} {x : F32} (h : isNaN32 x = true) (hl : ¬ LosesNaN m x) :
    isQuiet16 (narrow m x) = true ↔
      64 ≤ x.toNat / 65536 % 128 + (inc m (roundBit x) (sticky x) (lsb x)).toNat := by
  rw [isNaN32_iff] at h
  rw [narrow, narrowWith_of_not_losesNaN _ hl, isQuiet16_iff, rawNarrow_toNat]
  cases hi : inc m (roundBit x) (sticky x) (lsb x) with
  | false => rw [Bool.toNat_false]; omega
  | true =>
    rw [losesNaN_iff_of_inc hi, payload_eq_iff, BitVec.toNat_ofNat] at hl
    rw [Bool.toNat_true]
    omega

/-- The status of a NaN changes where a signaling one is lost, and where the increment carries into the highest bit of the
payload. -/
theorem isQuiet16_narrow_ne_iff {m : Mode} {x : F32} (h : isNaN32 x = true) :
    isQuiet16 (narrow m x) ≠ isQuiet32 x ↔
      x.extractLsb' 16 7 = 0x00#7 ∧ inc m (roundBit x) (sticky x) (lsb x) = false ∨
        x.extractLsb' 16 7 = 0x3F#7 ∧ inc m (roundBit x) (sticky x) (lsb x) = true := by
  rw [ne_eq, Bool.eq_iff_iff, isQuiet32_of_nan h]
  cases hi : inc m (roundBit x) (sticky x) (lsb x) with
  | false =>
    rw [sliced_or_inc_of_false rfl]
    by_cases hl : LosesNaN m x
    · have hquiet := isQuiet16_narrow_of_losesNaN h hl
      rw [losesNaN_iff_of_sliced hi] at hl
      rw [payload_eq_iff, BitVec.toNat_ofNat] at hl ⊢
      simp only [hquiet, true_iff]
      omega
    · have hquiet := isQuiet16_narrow_of_not_losesNaN h hl
      rw [losesNaN_iff_of_sliced hi] at hl
      rw [hquiet, hi, Bool.toNat_false]
      exact iff_of_false (not_not.mpr Iff.rfl) hl
  | true =>
    rw [sliced_or_inc_of_true rfl, payload_eq_iff, BitVec.toNat_ofNat]
    by_cases hl : LosesNaN m x
    · have hquiet := isQuiet16_narrow_of_losesNaN h hl
      rw [losesNaN_iff_of_inc hi, payload_eq_iff, BitVec.toNat_ofNat] at hl
      simp only [hquiet, true_iff]
      omega
    · rw [isQuiet16_narrow_of_not_losesNaN h hl, hi, Bool.toNat_true]
      omega

/-- Settles O37: the rows by payload and increment; the first and the last lose the NaN. -/
theorem naNOperandCases : Obligations.NaNOperandCases := by
  unfold Obligations.NaNOperandCases
  refine ⟨?rows, fun m x h => isQuiet16_narrow_ne_iff h⟩
  intro P _ m x i h hinc
  refine ⟨fun hp hi => ?zeros, fun hp hi => ?zerosInc, fun hlo _ hi => ?mixed, fun _ hhi hi => ?mixedInc,
    fun hp hi => ?ones, fun hp hi => ?onesInc⟩ <;> subst hi
  case zeros => exact ⟨rawNarrow_of_zeros h hp hinc, narrowWith_of_losesNaN P h (.inl ⟨hp, hinc⟩)⟩
  case zerosInc =>
    have hne : x.extractLsb' 16 7 ≠ 0x7F#7 := by rw [hp]; decide
    refine ⟨?_, narrowWith_of_not_losesNaN P (mt (losesNaN_iff_of_inc hinc).mp hne)⟩
    rw [rawNarrow_of_not_ones_inc h hne hinc, hp]
    cases x.getLsbD 31 <;> rfl
  case mixed =>
    have hne : x.extractLsb' 16 7 ≠ 0x00#7 := fun hp => absurd hlo (by rw [hp]; decide)
    exact ⟨rawNarrow_of_nan h hinc, narrowWith_of_not_losesNaN P (mt (losesNaN_iff_of_sliced hinc).mp hne)⟩
  case mixedInc =>
    have hne : x.extractLsb' 16 7 ≠ 0x7F#7 := fun hp => absurd hhi (by rw [hp]; decide)
    exact ⟨rawNarrow_of_not_ones_inc h hne hinc, narrowWith_of_not_losesNaN P (mt (losesNaN_iff_of_inc hinc).mp hne)⟩
  case ones =>
    have hne : x.extractLsb' 16 7 ≠ 0x00#7 := by rw [hp]; decide
    refine ⟨?_, narrowWith_of_not_losesNaN P (mt (losesNaN_iff_of_sliced hinc).mp hne)⟩
    rw [rawNarrow_of_nan h hinc, hp]
    cases x.getLsbD 31 <;> rfl
  case onesInc =>
    refine ⟨?_, narrowWith_of_losesNaN P h (.inr ⟨hp, hinc⟩)⟩
    rw [rawNarrow_of_ones_inc h hp hinc]
    cases x.getLsbD 31 <;> rfl

/-! The operands on which the guard acts, and their number (rule R62). -/

/-- The guard acts exactly on the NaNs that are lost: it answers a NaN where the literal result is none. -/
theorem narrow_ne_rawNarrow_iff (m : Mode) (x : F32) :
    narrow m x ≠ rawNarrow m x ↔ isNaN32 x = true ∧ LosesNaN m x := by
  constructor
  · intro hne
    have hl : LosesNaN m x := by_contra fun hl => hne (narrowWith_of_not_losesNaN _ hl)
    exact ⟨Bool.of_not_eq_false fun h => hne (narrowWith_of_not_nan _ m h), hl⟩
  · rintro ⟨h, hl⟩ heq
    have hnan := isNaN16_narrow_of_nan m h
    rw [heq, (isNaN16_rawNarrow_of_nan h).mpr hl] at hnan
    exact Bool.false_ne_true hnan

/-- The guard under TRUNC, by the operand without its sign. -/
theorem narrow_trunc_ne_iff (x : F32) :
    narrow .trunc x ≠ rawNarrow .trunc x ↔ x.toNat % 0x80000000 ∈ Finset.Ico 0x7F800001 0x7F810000 := by
  rw [narrow_ne_rawNarrow_iff, isNaN32_iff, losesNaN_trunc_iff, payload_eq_iff, BitVec.toNat_ofNat, Finset.mem_Ico]
  omega

/-- The guard under RN, by the operand without its sign. -/
theorem narrow_rn_ne_iff (x : F32) :
    narrow .rn x ≠ rawNarrow .rn x ↔
      x.toNat % 0x80000000 ∈ Finset.Ico 0x7F800001 0x7F808000 ∪ Finset.Ico 0x7FFF8000 0x80000000 := by
  rw [narrow_ne_rawNarrow_iff, isNaN32_iff, LosesNaN, payload_eq_iff, payload_eq_iff, BitVec.toNat_ofNat,
    BitVec.toNat_ofNat, inc_rn, roundBit_eq, decide_eq_true_eq, decide_eq_false_iff_not, Finset.mem_union, Finset.mem_Ico,
    Finset.mem_Ico]
  omega

/-- The guard under RNE, by the operand without its sign. -/
theorem narrow_rne_ne_iff (x : F32) :
    narrow .rne x ≠ rawNarrow .rne x ↔
      x.toNat % 0x80000000 ∈ Finset.Ico 0x7F800001 0x7F808001 ∪ Finset.Ico 0x7FFF8000 0x80000000 := by
  rw [narrow_ne_rawNarrow_iff, isNaN32_iff, LosesNaN, payload_eq_iff, payload_eq_iff, BitVec.toNat_ofNat,
    BitVec.toNat_ofNat, inc_rne_eq, decide_eq_true_eq, decide_eq_false_iff_not, Finset.mem_union, Finset.mem_Ico,
    Finset.mem_Ico]
  omega

/-- The number of members of two ranges, the second above the first. -/
theorem card_Ico_union_Ico {a b c d : Nat} (h : b ≤ c) :
    (Finset.Ico a b ∪ Finset.Ico c d).card = (b - a) + (d - c) := by
  have hdisjoint : Disjoint (Finset.Ico a b) (Finset.Ico c d) := by
    rw [Finset.disjoint_left]
    intro m hm hm'
    rw [Finset.mem_Ico] at hm hm'
    omega
  rw [Finset.card_union_of_disjoint hdisjoint, Nat.card_Ico, Nat.card_Ico]

/-- Settles O41: the ranges are those of the magnitudes; where the guard acts the literal result is the one of a lost NaN;
each range of magnitudes has two operands a member. -/
theorem guardActsExactlyHere : Obligations.GuardActsExactlyHere := by
  unfold Obligations.GuardActsExactlyHere
  refine ⟨fun x => ⟨?trunc, ?rn, ?rne⟩, fun m x hne => ?lost, ?truncCard, ?rnCard, ?rneCard⟩
  case trunc =>
    rw [narrow_trunc_ne_iff, Finset.mem_Ico, BitVec.le_def, BitVec.le_def, magnitude32_toNat, BitVec.toNat_ofNat,
      BitVec.toNat_ofNat]
    omega
  case rn =>
    rw [narrow_rn_ne_iff, Finset.mem_union, Finset.mem_Ico, Finset.mem_Ico, BitVec.le_def, BitVec.le_def, BitVec.le_def,
      magnitude32_toNat, BitVec.toNat_ofNat, BitVec.toNat_ofNat, BitVec.toNat_ofNat]
    omega
  case rne =>
    rw [narrow_rne_ne_iff, Finset.mem_union, Finset.mem_Ico, Finset.mem_Ico, BitVec.le_def, BitVec.le_def, BitVec.le_def,
      magnitude32_toNat, BitVec.toNat_ofNat, BitVec.toNat_ofNat, BitVec.toNat_ofNat]
    omega
  case lost =>
    obtain ⟨h, ⟨hp, hi⟩ | ⟨hp, hi⟩⟩ := (narrow_ne_rawNarrow_iff m x).mp hne
    · refine .inl ⟨?_, rawNarrow_of_zeros h hp hi⟩
      rw [payload_eq_iff, BitVec.toNat_ofNat] at hp
      rw [isNaN32_iff] at h
      rw [isSignaling32_iff]
      omega
    · refine .inr ⟨?_, rawNarrow_of_ones_inc h hp hi⟩
      rw [payload_eq_iff, BitVec.toNat_ofNat] at hp
      rw [isQuiet32_of_nan h]
      omega
  case truncCard =>
    rw [card_magnitude_mem (n := 31) _ ?_ narrow_trunc_ne_iff, Nat.card_Ico]
    intro m hm
    rw [Finset.mem_Ico] at hm
    omega
  case rnCard =>
    rw [card_magnitude_mem (n := 31) _ ?_ narrow_rn_ne_iff, card_Ico_union_Ico (by decide)]
    intro m hm
    rw [Finset.mem_union, Finset.mem_Ico, Finset.mem_Ico] at hm
    omega
  case rneCard =>
    rw [card_magnitude_mem (n := 31) _ ?_ narrow_rne_ne_iff, card_Ico_union_Ico (by decide)]
    intro m hm
    rw [Finset.mem_union, Finset.mem_Ico, Finset.mem_Ico] at hm
    omega

end Sys2Proof.Machine
end

section
/-! PROOF. The order of magnitudes and rounding in value terms (10_state.md rule R21, 40_rounder.md rule R48). From one
pattern to the next the magnitude grows by a spacing that depends on the exponent only, so it is strictly monotone, and
between the two BF16 neighbours of an operand it is affine; rounding to the nearer of the two is then nearest among
all. -/

namespace Sys2Proof.Machine

/-- The magnitude of a pattern without its sign bit, read as an unsigned integer. -/
def magnitudeAt (width n : Nat) : Nat := magnitudeUnits width (n / 2 ^ width) (n % 2 ^ width)

/-- The distance between neighbouring patterns of the exponent field `e`. -/
def spacing (width e : Nat) : Nat := 2 ^ (e - 1) * 2 ^ (23 - width)

theorem magnitudeUnits_succ (width e m : Nat) :
    magnitudeUnits width e (m + 1) = magnitudeUnits width e m + spacing width e := by
  rw [magnitudeUnits, magnitudeUnits, spacing, Config.f32MantissaBits]
  split
  · next he => subst he; ring
  · ring

/-- A mantissa field that overflows is the next exponent with a zero mantissa. -/
theorem magnitudeUnits_carry (width e : Nat) :
    magnitudeUnits width e (2 ^ width) = magnitudeUnits width (e + 1) 0 := by
  rw [magnitudeUnits, magnitudeUnits, if_neg (Nat.succ_ne_zero e)]
  split
  · next he => subst he; simp
  · next he =>
    obtain ⟨k, rfl⟩ := Nat.exists_eq_succ_of_ne_zero he
    simp only [Nat.succ_eq_add_one, Nat.add_sub_cancel]
    ring

theorem magnitudeAt_succ (width n : Nat) :
    magnitudeAt width (n + 1) = magnitudeAt width n + spacing width (n / 2 ^ width) := by
  have hpos : 0 < 2 ^ width := Nat.two_pow_pos width
  have hn := Nat.div_add_mod n (2 ^ width)
  have hlt := Nat.mod_lt n hpos
  rw [magnitudeAt, magnitudeAt, ← magnitudeUnits_succ]
  by_cases hc : n % 2 ^ width + 1 = 2 ^ width
  · obtain ⟨hdiv, hmod⟩ : (n + 1) / 2 ^ width = n / 2 ^ width + 1 ∧ (n + 1) % 2 ^ width = 0 :=
      (Nat.div_mod_unique hpos).mpr ⟨by rw [Nat.mul_add_one]; omega, hpos⟩
    rw [hdiv, hmod, hc, magnitudeUnits_carry]
  · obtain ⟨hdiv, hmod⟩ : (n + 1) / 2 ^ width = n / 2 ^ width ∧ (n + 1) % 2 ^ width = n % 2 ^ width + 1 :=
      (Nat.div_mod_unique hpos).mpr ⟨by omega, by omega⟩
    rw [hdiv, hmod]

theorem magnitudeAt_strictMono (width : Nat) : StrictMono (magnitudeAt width) :=
  strictMono_nat_of_lt_succ fun n => by
    rw [magnitudeAt_succ]
    exact Nat.lt_add_of_pos_right (by unfold spacing; positivity)

theorem mag32_eq (x : F32) : mag32 x = magnitudeAt 23 (x.toNat % 0x80000000) := by
  rw [mag32, magnitudeAt, exp32_toNat, man32_toNat]
  congr 1 <;> omega

theorem mag16_eq (p : BF16) : mag16 p = magnitudeAt 7 (p.toNat % 0x8000) := by
  rw [mag16, magnitudeAt, exp16_toNat, man16_toNat]
  congr 1 <;> omega

/-- Between the patterns that share an upper half the spacing is the same, up to the first of the next upper half. -/
theorem magnitudeAt_add_low (h : Nat) {l : Nat} (hl : l ≤ 65536) :
    magnitudeAt 23 (h * 65536 + l) = magnitudeAt 23 (h * 65536) + l * spacing 23 (h / 128) := by
  induction l with
  | zero => rw [Nat.zero_mul, Nat.add_zero, Nat.add_zero]
  | succ l ih =>
    have hexp : (h * 65536 + l) / 2 ^ 23 = h / 128 := by omega
    rw [← Nat.add_assoc, magnitudeAt_succ, ih (by omega), hexp, Nat.succ_mul, Nat.add_assoc]

/-- A BF16 pattern has the magnitude of the F32 pattern with zeros below it. -/
theorem magnitudeAt_mul_half (k : Nat) : magnitudeAt 23 (k * 65536) = magnitudeAt 7 k := by
  have hexp : k * 65536 / 2 ^ 23 = k / 2 ^ 7 := by omega
  have hman : k * 65536 % 2 ^ 23 = k % 2 ^ 7 * 65536 := by omega
  rw [magnitudeAt, magnitudeAt, hexp, hman, magnitudeUnits, magnitudeUnits, Config.f32MantissaBits]
  split
  · ring
  · ring

/-- The operand's magnitude from its lower neighbour on. -/
theorem magnitudeAt_operand (h : Nat) {l : Nat} (hl : l ≤ 65536) :
    magnitudeAt 23 (h * 65536 + l) = magnitudeAt 7 h + l * spacing 23 (h / 128) := by
  rw [magnitudeAt_add_low h hl, magnitudeAt_mul_half]

/-- The upper neighbour lies a whole discarded half further. -/
theorem magnitudeAt_neighbour (h : Nat) : magnitudeAt 7 (h + 1) = magnitudeAt 7 h + 65536 * spacing 23 (h / 128) := by
  rw [← magnitudeAt_operand h (le_refl 65536), ← Nat.succ_mul, magnitudeAt_mul_half]

/-- The lower neighbour up to the midpoint, and the upper one from it on, is at least as near as any BF16 pattern. -/
theorem nearest_magnitude {h l i : Nat} (hl : l < 65536) (hup : i = 1 ∧ 32768 ≤ l ∨ i = 0 ∧ l ≤ 32768) (k : Nat) :
    ((magnitudeAt 7 (h + i) : Int) - magnitudeAt 23 (h * 65536 + l)).natAbs ≤
      ((magnitudeAt 7 k : Int) - magnitudeAt 23 (h * 65536 + l)).natAbs := by
  have hupper := magnitudeAt_neighbour h
  have hk : magnitudeAt 7 k ≤ magnitudeAt 7 h ∨ magnitudeAt 7 (h + 1) ≤ magnitudeAt 7 k := by
    obtain hk | hk : k ≤ h ∨ h + 1 ≤ k := by omega
    · exact .inl ((magnitudeAt_strictMono 7).monotone hk)
    · exact .inr ((magnitudeAt_strictMono 7).monotone hk)
  rw [magnitudeAt_operand h hl.le]
  generalize spacing 23 (h / 128) = s at hupper ⊢
  obtain ⟨rfl, hmid⟩ | ⟨rfl, hmid⟩ := hup
  · have hfar : 32768 * s ≤ l * s := Nat.mul_le_mul_right s hmid
    have hend : l * s ≤ 65536 * s := Nat.mul_le_mul_right s hl.le
    omega
  · have hnear : l * s ≤ 32768 * s := Nat.mul_le_mul_right s hmid
    rw [Nat.add_zero]
    omega

/-- The magnitude of an operand, split at its upper half. -/
theorem mag32_eq_split (x : F32) : mag32 x = magnitudeAt 23 (x.toNat / 65536 % 32768 * 65536 + x.toNat % 65536) := by
  rw [mag32_eq]
  congr 1
  omega

/-- The magnitude of a narrowing result is that of the upper half plus the increment. -/
theorem mag16_narrow {x : F32} (h : isNaN32 x = false) (m : Mode) :
    mag16 (narrow m x) =
      magnitudeAt 7 (x.toNat / 65536 % 32768 + (inc m (roundBit x) (sticky x) (lsb x)).toNat) := by
  have hbelow := inc_stays_below_sign h m
  rw [mag16_eq, narrow, narrowWith_toNat_of_not_nan _ m h]
  congr 1
  omega

theorem natAbs_signedUnits_sub (s : Bool) (a b : Nat) :
    (signedUnits s a - signedUnits s b).natAbs = ((a : Int) - b).natAbs := by
  cases s with
  | false => rfl
  | true => simp only [signedUnits, if_true]; omega

/-- Values of different signs are further apart than either is from zero. -/
theorem le_natAbs_signedUnits_sub_of_ne {s t : Bool} (h : s ≠ t) (a b : Nat) :
    b ≤ (signedUnits s a - signedUnits t b).natAbs := by
  obtain rfl : t = !s := Bool.eq_not.mpr (Ne.symm h)
  cases s <;> simp only [signedUnits, Bool.not_true, Bool.not_false, Bool.false_eq_true, if_true, if_false] <;> omega

/-- A rounding policy's result is at least as near to the operand as any BF16 pattern: among those of its sign it is the
nearer neighbour, and zero is among them, which those of the other sign lie beyond. -/
theorem narrow_nearest {m : Mode} (hm : m ≠ .trunc) {x : F32} (h : isNaN32 x = false) (q : BF16) :
    (units16 (narrow m x) - units32 x).natAbs ≤ (units16 q - units32 x).natAbs := by
  have hnearest := nearest_magnitude (h := x.toNat / 65536 % 32768) (Nat.mod_lt _ (by decide)) (inc_side_of_midpoint hm x)
  have hsign : sign16 (narrow m x) = sign32 x := sign16_narrowWith nanParams m x
  rw [units16, hsign, units32, natAbs_signedUnits_sub, mag16_narrow h, mag32_eq_split, units16, mag16_eq q]
  by_cases hq : sign16 q = sign32 x
  · rw [hq, natAbs_signedUnits_sub]
    exact hnearest _
  · have hx := hnearest 0
    have hzero : magnitudeAt 7 0 = 0 := by decide
    rw [hzero, Int.natCast_zero, Int.zero_sub, Int.natAbs_neg, Int.natAbs_natCast] at hx
    exact hx.trans (le_natAbs_signedUnits_sub_of_ne hq _ _)

/-- TRUNC goes to the neighbour towards zero. -/
theorem mag16_narrow_trunc_le {x : F32} (h : isNaN32 x = false) : mag16 (narrow .trunc x) ≤ mag32 x := by
  rw [mag16_narrow h, mag32_eq_split, inc_trunc, Bool.toNat_false, Nat.add_zero, ← magnitudeAt_mul_half]
  exact (magnitudeAt_strictMono 23).monotone (Nat.le_add_right _ _)

/-- RN goes from a tie to the neighbour away from zero. -/
theorem mag32_lt_mag16_narrow_rn {x : F32} (h : isNaN32 x = false) (htie : lo16 x = 0x8000#16) :
    mag32 x < mag16 (narrow .rn x) := by
  have hinc : inc .rn (roundBit x) (sticky x) (lsb x) = true :=
    (half_le_lo16_iff x).mp (by rw [htie]; exact BitVec.le_refl _)
  rw [mag16_narrow h, mag32_eq_split, hinc, Bool.toNat_true, ← magnitudeAt_mul_half]
  exact magnitudeAt_strictMono 23 (by omega)

/-- Settles O30: the order by strict monotonicity, and each policy by the neighbour it goes to. -/
theorem roundingIsToNearest : Obligations.RoundingIsToNearest := by
  unfold Obligations.RoundingIsToNearest
  refine ⟨fun u v _ _ => ?order, fun x hfin => ?towardZero, fun m x q hm hfin _ _ => ?nearest, fun x hfin htie =>
    ⟨fun _ => ?away, ?even⟩⟩
  case order =>
    rw [magnitude32_toNat, magnitude32_toNat, mag32_eq, mag32_eq, (magnitudeAt_strictMono 23).lt_iff_lt]
  case towardZero =>
    rw [units16, units32, natAbs_signedUnits, natAbs_signedUnits]
    exact mag16_narrow_trunc_le (isNaN32_eq_false_of_finite hfin)
  case nearest => exact narrow_nearest hm (isNaN32_eq_false_of_finite hfin) q
  case away =>
    rw [units16, units32, natAbs_signedUnits, natAbs_signedUnits]
    exact mag32_lt_mag16_narrow_rn (isNaN32_eq_false_of_finite hfin) htie
  case even =>
    rw [narrow_eq_rawNarrow_of_not_nan (isNaN32_eq_false_of_finite hfin)]
    exact rawNarrow_rne_even_of_tie htie

end Sys2Proof.Machine
end

section
/-! PROOF. Widening is exact (42_widening.md rules R65 to R68). The sign and the exponent of a widened pattern are the
operand's and its mantissa is zero exactly when the operand's is, so every class is kept; its magnitude is the operand's
with sixteen zeros below. -/

namespace Sys2Proof.Machine

theorem widen_inj {p q : BF16} (h : widen p = widen q) : p = q := by
  rw [← hi16_widen p, h, hi16_widen]

/-- The widened patterns are those with a zero low half. -/
theorem exists_widen_eq_iff (x : F32) : (∃ p : BF16, widen p = x) ↔ lo16 x = 0#16 := by
  constructor
  · rintro ⟨p, rfl⟩
    exact lo16_widen p
  · exact fun h => ⟨hi16 x, widen_hi16_of_lo16_eq_zero h⟩

theorem man32_widen_eq_zero (p : BF16) : (man32 (widen p) == 0#23) = (man16 p == 0#7) := by
  rw [man32_eq_zero_iff, man16_eq_zero_iff, widen_toNat, decide_eq_decide]
  omega

/-- The bit that tells a quiet NaN is kept. -/
theorem quietBit_widen (p : BF16) : (widen p).getLsbD 22 = p.getLsbD 6 := by
  rw [getLsbD_eq_decide, getLsbD_eq_decide, widen_toNat, decide_eq_decide]
  omega

@[simp] theorem isInf32_widen (p : BF16) : isInf32 (widen p) = isInf16 p := by
  rw [isInf32, exp32_widen, man32_widen_eq_zero, isInf16]

@[simp] theorem isZero32_widen (p : BF16) : isZero32 (widen p) = isZero16 p := by
  rw [Bool.eq_iff_iff, isZero32_iff, isZero16_iff, widen_toNat]
  omega

@[simp] theorem isSub32_widen (p : BF16) : isSub32 (widen p) = isSub16 p := by
  rw [isSub32, exp32_widen, bne, man32_widen_eq_zero, isSub16, bne]

@[simp] theorem isNormal32_widen (p : BF16) : isNormal32 (widen p) = isNormal16 p := by
  rw [isNormal32, exp32_widen, isNormal16]

@[simp] theorem isFinite32_widen (p : BF16) : isFinite32 (widen p) = isFinite16 p := by
  rw [isFinite32, exp32_widen, isFinite16]

@[simp] theorem isQuiet32_widen (p : BF16) : isQuiet32 (widen p) = isQuiet16 p := by
  rw [isQuiet32, isNaN32_widen, quietBit_widen, isQuiet16]

@[simp] theorem isSignaling32_widen (p : BF16) : isSignaling32 (widen p) = isSignaling16 p := by
  rw [isSignaling32, isNaN32_widen, quietBit_widen, isSignaling16]

@[simp] theorem mag32_widen (p : BF16) : mag32 (widen p) = mag16 p := by
  have hmag : p.toNat * 65536 % 0x80000000 = p.toNat % 0x8000 * 65536 := by omega
  rw [mag32_eq, widen_toNat, hmag, magnitudeAt_mul_half, mag16_eq]

@[simp] theorem units32_widen (p : BF16) : units32 (widen p) = units16 p := by
  rw [units32, sign32_widen, mag32_widen, units16]

@[simp] theorem value32_widen (p : BF16) : value32 (widen p) = value16 p := by
  rw [value32, isNaN32_widen, isInf32_widen, sign32_widen, units32_widen, value16]

/-- Settles O46: injectivity, image, the classes, the sign and the value. -/
theorem wideningIsExact : Obligations.WideningIsExact := by
  unfold Obligations.WideningIsExact
  exact ⟨fun _ _ => widen_inj, exists_widen_eq_iff, fun p => ⟨isNaN32_widen p, isInf32_widen p, isZero32_widen p,
    isSub32_widen p, isNormal32_widen p, isFinite32_widen p, isQuiet32_widen p, isSignaling32_widen p, sign32_widen p,
    value32_widen p⟩⟩

/-- A widened pattern keeps the payload in the upper seven bits of its mantissa. -/
theorem payload_widen (p : BF16) : (widen p).extractLsb' 16 7 = man16 p := by
  rw [payload_eq_iff, widen_toNat, man16_toNat]
  omega

/-- Settles O47: the closed patterns by evaluation, the classes by the lemma of each. -/
theorem wideningCornerCases : Obligations.WideningCornerCases := by
  unfold Obligations.WideningCornerCases
  refine ⟨by decide, by decide, by decide, by decide, by decide, by decide, fun p h => ?subnormal, fun p h => ?nan,
    fun p h => ?signaling⟩
  case subnormal => exact ⟨(isSub32_widen p).trans h, value32_widen p⟩
  case nan => exact ⟨(isNaN32_widen p).trans h, payload_widen p, lo16_widen p⟩
  case signaling => exact (isSignaling32_widen p).trans h

/-- Settles O51: the widened constants keep their class, every widened pattern comes back, and the rounding policies
take the largest finite operands to the two infinities. -/
theorem generatorContract : Obligations.GeneratorContract := by
  unfold Obligations.GeneratorContract
  refine ⟨by decide, fun P hP => ?constants, fun m hm => ⟨?posOverflow, ?negOverflow⟩⟩
  case constants =>
    obtain ⟨hq, hs⟩ := (naNParams_wellFormed_iff P).mp hP
    rw [isNaN32_widen, isQuiet32_widen, isNaN32_widen, isSignaling32_widen]
    exact ⟨(Bool.and_eq_true_iff.mp hq).1, hq, (Bool.and_eq_true_iff.mp hs).1, hs, fun m c _ => narrowWith_widen P m c⟩
  case posOverflow => exact narrow_of_large hm (by decide) (by decide)
  case negOverflow => exact narrow_of_large hm (by decide) (by decide)

end Sys2Proof.Machine
end

section
/-! PROOF. The value-type layer's default policy, the document's arithmetic property and saturation (43_value_type.md
rules R73, R75 (iii), R78). An operator narrows what the external operation answers on the widened operands: a widened pattern
comes back as it was, and an infinity as the infinity of its sign. -/

namespace Sys2Proof.Machine

/-- Settles O53: the default policy is RNE, and a construction is the narrowing under its policy. -/
theorem defaultPolicyIsNearestEven : Obligations.DefaultPolicyIsNearestEven := by
  unfold Obligations.DefaultPolicyIsNearestEven
  exact fun x => fromFloat32_eq_narrow x .rne

/-- Where the external operation is exact on widened values and the external equality is true of equal ones, so are the
operator and the equality of values. -/
theorem valEq_promoted_of_exact {U : F32Unit} (hU : EqTrueOnEqual U) {f : F32 → F32 → F32} {a b c : BF16}
    (hf : f (widen a) (widen b) = widen c) (hc : isNaN16 c = false) : valEq U (promoted f a b) c = true := by
  rw [promoted_eq, hf, narrow_widen, valEq, compared_eq]
  exact hU _ ((isNaN32_widen c).trans hc)

/-- Settles O57: the four exact results are widened values. -/
theorem arithmeticPropertyHolds : Obligations.ArithmeticPropertyHolds := by
  unfold Obligations.ArithmeticPropertyHolds
  rintro U ⟨hadd, hsub, hmul, hdiv⟩ hU
  exact ⟨valEq_promoted_of_exact hU hadd (by decide), valEq_promoted_of_exact hU hsub (by decide),
    valEq_promoted_of_exact hU hmul (by decide), valEq_promoted_of_exact hU hdiv (by decide)⟩

theorem narrow_inf32 (m : Mode) (negative : Bool) :
    narrow m (inf32 negative) = if negative = true then 0xFF80#16 else 0x7F80#16 := by
  cases negative with
  | false => exact (infinitiesNarrowToInfinities m).1
  | true => exact (infinitiesNarrowToInfinities m).2

/-- An operator whose external operation saturates gives the infinity of the exact result's sign. -/
theorem promoted_of_saturatesAt {limit : Int} {f : F32 → F32 → F32} {exact : F32 → F32 → Int}
    (hf : SaturatesAt limit f exact) {u v : BF16} (hu : isFinite16 u = true) (hv : isFinite16 v = true) :
    (limit ≤ exact (widen u) (widen v) → promoted f u v = 0x7F80#16) ∧
      (exact (widen u) (widen v) ≤ -limit → promoted f u v = 0xFF80#16) := by
  rw [← isFinite32_widen] at hu hv
  obtain ⟨hpos, hneg⟩ := hf _ _ hu hv
  exact ⟨fun h => by rw [promoted_eq, hpos h, narrow_inf32]; rfl, fun h => by rw [promoted_eq, hneg h, narrow_inf32]; rfl⟩

/-- A quotient that saturates is the infinity of the operands' signs. -/
theorem valDiv_of_saturates {U : F32Unit} (hU : ArithSaturates U) {u v : BF16} (hu : isFinite16 u = true)
    (hv : isFinite16 v = true) (hv0 : mag16 v ≠ 0) (hle : mag16 v * 2 ^ 128 ≤ mag16 u) :
    valDiv U u v = if (sign16 u ^^ sign16 v) = true then 0xFF80#16 else 0x7F80#16 := by
  obtain ⟨-, -, -, hdiv⟩ := hU
  have hinf := hdiv (widen u) (widen v) (by rw [isFinite32_widen, hu]) (by rw [isFinite32_widen, hv])
  rw [mag32_widen, mag32_widen, sign32_widen, sign32_widen] at hinf
  rw [valDiv, promoted_eq, hinf hv0 hle, narrow_inf32]

/-- Settles O58: the exact results of widened values are those of the values. -/
theorem overflowingArithmeticGivesInfinity : Obligations.OverflowingArithmeticGivesInfinity := by
  unfold Obligations.OverflowingArithmeticGivesInfinity
  intro U u v hU hu hv
  have ⟨hadd, hsub, hmul, _⟩ := hU
  have hAdd := promoted_of_saturatesAt hadd hu hv
  have hSub := promoted_of_saturatesAt hsub hu hv
  have hMul := promoted_of_saturatesAt hmul hu hv
  simp only [units32_widen] at hAdd hSub hMul
  exact ⟨hAdd.1, hAdd.2, hSub.1, hSub.2, hMul.1, hMul.2, valDiv_of_saturates hU hu hv⟩

end Sys2Proof.Machine
end

section
/-! PROOF. A host's buffers (20_memory.md rule R26). Reading orders the bytes as writing did, and both byte orders put the
bytes of the upper half together. -/

namespace Sys2Proof.Machine

@[simp] theorem orderBytes_orderBytes (o : ByteOrder) (bs : List Byte) : orderBytes o (orderBytes o bs) = bs := by
  cases o with
  | little => rfl
  | big => exact List.reverse_reverse bs

theorem loadBF16_storeBF16 (o : ByteOrder) (p : BF16) : loadBF16 o (storeBF16 o p) = some p := by
  rw [loadBF16, storeBF16, orderBytes_orderBytes]
  exact congrArg some (BitVec.extractLsb'_append_extractLsb' (x := p) (len := 8))

theorem loadF32_storeF32 (o : ByteOrder) (x : F32) : loadF32 o (storeF32 o x) = some x := by
  have hx : x.extractLsb' 24 8 ++ x.extractLsb' 16 8 ++ x.extractLsb' 8 8 ++ x.extractLsb' 0 8 = x := by
    rw [BitVec.extractLsb'_append_extractLsb'_eq_extractLsb' (by rfl),
      BitVec.extractLsb'_append_extractLsb'_eq_extractLsb' (by rfl), BitVec.extractLsb'_append_extractLsb']
  rw [loadF32, storeF32, orderBytes_orderBytes]
  exact congrArg some hx

/-- The more significant bytes of a stored F32 are the stored upper half. -/
theorem upperBytes_storeF32 (o : ByteOrder) (x : F32) : upperBytes o (storeF32 o x) = storeBF16 o (hi16 x) := by
  rw [storeBF16, extractLsb'_hi16 x (by decide), extractLsb'_hi16 x (by decide)]
  cases o <;> rfl

/-- Settles O59: a widened pattern's upper half is the pattern. -/
theorem storedElementsReadBack : Obligations.StoredElementsReadBack := by
  unfold Obligations.StoredElementsReadBack
  refine fun o => ⟨fun p => ⟨loadBF16_storeBF16 o p, ?widened⟩, loadF32_storeF32 o, fun x => ?upperHalf⟩
  case widened => rw [upperBytes_storeF32, hi16_widen]
  case upperHalf => rw [upperBytes_storeF32, loadBF16_storeBF16, hi16]

end Sys2Proof.Machine
end

section
/-! PROOF. A host's programs (30_encoding.md rule R38). A line that issues a request leaves the block's answer to it, and
any other line leaves nothing of the block's; so, line by line, the answers are the map of `eval` over the requests. -/

namespace Sys2Proof.Machine

/-- A line that issues a request, if it issues one, leaves the block's answer. -/
theorem requestLine_eq_some {q : Option Request} {y : LineResult} {rs : List Request}
    (h : q.map (fun r => (LineResult.block (evalRequest r), [r])) = some (y, rs)) :
    blockResults [y] = rs.map evalRequest := by
  obtain ⟨r, -, hr⟩ := Option.map_eq_some_iff.mp h
  obtain ⟨rfl, rfl⟩ := Prod.mk.inj hr
  rfl

/-- One line leaves the block's answers to the requests it issues, and nothing else of the block's. -/
theorem blockResults_runLine {U : F32Unit} {env : List LineResult} {l : HostLine} {y : LineResult} {rs : List Request}
    (h : runLine U env l = some (y, rs)) : blockResults [y] = rs.map evalRequest := by
  cases l with
  | request o x => exact requestLine_eq_some h
  | pseudo p x =>
    rw [runLine] at h
    split at h
    · exact requestLine_eq_some h
    · obtain ⟨z, -, hz⟩ := Option.map_eq_some_iff.mp h
      obtain ⟨rfl, rfl⟩ := Prod.mk.inj hz
      rfl
  | ext f u v =>
    rw [runLine] at h
    split at h
    · obtain ⟨rfl, rfl⟩ := Prod.mk.inj (Option.some.inj h)
      rfl
    · cases h
  | extCompare f u v =>
    rw [runLine] at h
    split at h
    · obtain ⟨rfl, rfl⟩ := Prod.mk.inj (Option.some.inj h)
      rfl
    · cases h

/-- A program's first line and the rest of it. -/
theorem runLines_cons_eq_some {U : F32Unit} {env out : List LineResult} {l : HostLine} {rest : List HostLine}
    {rs : List Request} (h : runLines U env (l :: rest) = some (out, rs)) :
    ∃ (y : LineResult) (rs₁ rs₂ : List Request), runLine U env l = some (y, rs₁) ∧
      runLines U (env ++ [y]) rest = some (out, rs₂) ∧ rs = rs₁ ++ rs₂ := by
  rw [runLines] at h
  split at h
  · cases h
  · next y rs₁ hl =>
    split at h
    · cases h
    · next out' rs₂ hrest =>
      obtain ⟨rfl, rfl⟩ := Prod.mk.inj (Option.some.inj h)
      exact ⟨y, rs₁, rs₂, hl, hrest, rfl⟩

theorem blockResults_append (env env' : List LineResult) :
    blockResults (env ++ env') = blockResults env ++ blockResults env' := List.filterMap_append

/-- The lines after `env` add the block's answers to the requests they issue, in order. -/
theorem blockResults_runLines {U : F32Unit} {p : List HostLine} {env out : List LineResult} {rs : List Request}
    (h : runLines U env p = some (out, rs)) : blockResults out = blockResults env ++ rs.map evalRequest := by
  induction p generalizing env rs with
  | nil =>
    obtain ⟨rfl, rfl⟩ := Prod.mk.inj (Option.some.inj h)
    exact (List.append_nil _).symm
  | cons l rest ih =>
    obtain ⟨y, rs₁, rs₂, hl, hrest, rfl⟩ := runLines_cons_eq_some h
    rw [ih hrest, blockResults_append, blockResults_runLine hl, List.map_append, List.append_assoc]

/-- Settles O60: the run observes the map of `eval` over the requests, and so do the program's request lines. -/
theorem hostProgramsObserveTheirRequests : Obligations.HostProgramsObserveTheirRequests := by
  unfold Obligations.HostProgramsObserveTheirRequests
  intro U p env rs h
  rw [observation_eq_map, blockResults_runLines h]
  rfl

end Sys2Proof.Machine
end
